-- ==== Sys2Proof/Word.lean ====
section
/-! DEFINITION. The widths of the machine: data words, command words, bytes of a host binding. -/

namespace Sys2Proof

/-- A 32-bit word: a register, a table entry, an operand or a sample, always moved whole (R9, R51). -/
abbrev Word := BitVec 32

/-- A command word `CW`, 66 bits, transferred whole (R70). -/
abbrev CommandWord := BitVec 66

/-- A byte of a host binding that splits a word (R51). -/
abbrev Byte := BitVec 8

end Sys2Proof
end

