-- ==== Sys2Proof/Syntax.lean ====
section
/-! DEFINITION. The command set NCO-CMD version 1: one constructor per row of spec/opcode_table.json. -/

namespace Sys2Proof

/-- The commands (R72). Operands are raw binary32 patterns (R73); the fields a command ignores (R74) are no operands of it. -/
inductive Instr where
  /-- `INIT fs, f0`: construction (R102). -/
  | init (fs f0 : Word)
  /-- `SETF0 f0`: change of the fundamental frequency (R106). -/
  | setf0 (f0 : Word)
  /-- `RENDER`: one output sample (R120). -/
  | render
  /-- The reserved encoding, `OP = 00` whatever A and B hold (R77, R151). -/
  | reserved
  deriving DecidableEq, Repr

end Sys2Proof
end

