-- ==== Sys2Proof/WellFormed.lean ====
section
/-! DEFINITION. Which instructions and which numbers are commands of the port at all. -/

namespace Sys2Proof

/-- Every operand pattern is legal and no command rejects one at decode (R73), so every term of `Instr` is well formed. -/
def Instr.wf : Instr → Bool
  | .init _ _ => true
  | .setf0 _ => true
  | .render => true
  | .reserved => true

/-- A number is a command word when it fits the 66 bits of format CMD (R70, R78: no other length exists). -/
def isCommandNumber (w : Nat) : Bool := decide (w < 2 ^ 66)

end Sys2Proof
end

