-- ==== Sys2Proof/Decode.lean ====
section
/-! DEFINITION. The decoder, total over all command words (R76), and the encoder that emits canonical words (R74). -/

namespace Sys2Proof

/-- The command selector `OP = CW[65:64]` (R71). -/
def opField (cw : CommandWord) : BitVec 2 := cw.extractLsb' 64 2

/-- The first operand field `A = CW[63:32]` (R71), taken with no extension, scaling or shift (R73). -/
def aField (cw : CommandWord) : Word := cw.extractLsb' 32 32

/-- The second operand field `B = CW[31:0]` (R71). -/
def bField (cw : CommandWord) : Word := cw.extractLsb' 0 32

/-- `decode(CW)` of R76. -/
def decode (cw : CommandWord) : Instr :=
  if opField cw = 0b01#2 then .init (aField cw) (bField cw)
  else if opField cw = 0b10#2 then .setf0 (aField cw)
  else if opField cw = 0b11#2 then .render
  else .reserved

/-- The command word `OP : A : B` (R71). -/
def commandWord (op : BitVec 2) (a b : Word) : CommandWord := op ++ (a ++ b)

/-- The canonical encoding: the opcode of R72, the operands in their fields, ignored fields zero (R74). -/
def encode : Instr → CommandWord
  | .init fs f0 => commandWord 0b01#2 fs f0
  | .setf0 f0 => commandWord 0b10#2 f0 0#32
  | .render => commandWord 0b11#2 0#32 0#32
  | .reserved => commandWord 0b00#2 0#32 0#32

/-- A number presented as a command: decoded when it is a command word, refused when it does not fit the port (R70). -/
def decodeNumber (w : Nat) : Option Instr :=
  if isCommandNumber w then some (decode (BitVec.ofNat 66 w)) else none

/-- The host's question: the instruction read from the number `w`, of which the table gives the low `nbits` bits
and every higher bit is 0. The number is one 66-bit command word, bit 0 its least significant bit (R13, R70). -/
def decodeTableWord (nbits w : Nat) : Option Instr := decodeNumber (w % 2 ^ nbits)

end Sys2Proof
end

