-- ==== Sys2Proof/Config.lean ====
section
/-! DEFINITION. What the spec leaves to an implementation: the free values, and the byte order of a host binding. -/

namespace Sys2Proof.Config

/-- The four binary32 operations whose result can be a NaN (R15). -/
inductive FpOp where
  | add
  | sub
  | mul
  | div
  deriving DecidableEq, Repr

/-- FREE VALUE (R17, U1, U11; log 3): the n-th UNSPECIFIED sample, any 32-bit pattern. DESIGN CHOICE, unsafe: it depends on
the number of words drawn before it alone, so two states, or two instances (R170), with equal counts draw the same word. -/
opaque freeSample : Nat → Word

/-- FREE VALUE (D1, U10; log 4): the pattern from which the NaN result of an operation on two operands takes its sign and
its fraction. Any pattern; `Machine.toNaN` makes a NaN of it. DESIGN CHOICE, unsafe: it depends on the operation and its
operands alone, in every state and every instance. -/
opaque nanBits : FpOp → Word → Word → Word

/-- HOST_BYTE_ORDER (R11, R51, D10): the order in which a host binding that splits a 32-bit word sends its bytes. -/
inductive ByteOrder where
  | little
  | big
  deriving DecidableEq, Repr

/-- The spec's default for HOST_BYTE_ORDER (R51). -/
def defaultByteOrder : ByteOrder := .little

end Sys2Proof.Config
end

