-- ==== Sys2Proof/Machine/Float.lean ====
section
/-! DEFINITION. IEEE 754 binary32 (R9, R15): every value of the block is a 32-bit pattern, each operation computes the
exact result and rounds it once, to nearest with ties to even. Subnormals are kept. Magnitudes are counted in units of
the smallest subnormal, 2^-149, of which every finite binary32 is an integer multiple. -/

namespace Sys2Proof.Machine

/-- What a binary32 pattern stands for: NaN, an infinity, or a signed magnitude in units of 2^-149 (R73). -/
inductive Num where
  | nan
  | inf (neg : Bool)
  | fin (neg : Bool) (mag : Nat)
  deriving DecidableEq, Repr

/-- The sign, bit 31 (R73). -/
def signBit (w : Word) : Bool := w.msb

/-- The biased exponent, bits 30:23 (R73). -/
def exponentField (w : Word) : Nat := (w.extractLsb' 23 8).toNat

/-- The fraction, bits 22:0 (R73). -/
def fractionField (w : Word) : Nat := (w.extractLsb' 0 23).toNat

/-- The magnitude of a finite pattern in units of 2^-149: subnormal when the exponent field is 0, else with the hidden bit. -/
def magUnits (e f : Nat) : Nat := if e = 0 then f else (2 ^ 23 + f) * 2 ^ (e - 1)

/-- The number a pattern stands for (R73). -/
def unpack (w : Word) : Num :=
  if exponentField w = 255 then
    if fractionField w = 0 then .inf (signBit w) else .nan
  else .fin (signBit w) (magUnits (exponentField w) (fractionField w))

/-- The pattern with a given sign and the 31 bits below it. -/
def withSign (neg : Bool) (bits : Nat) : Word := BitVec.ofNat 32 (if neg then 2 ^ 31 + bits else bits)

/-- The 31 bits of an infinity. -/
def infBits : Nat := 0x7f800000

/-- A quotient rounded to the nearest integer, ties to even. -/
def roundDiv (n d : Nat) : Nat :=
  if 2 * (n % d) < d then n / d
  else if d < 2 * (n % d) then n / d + 1
  else n / d + n / d % 2

/-- How many bits of the integer part of a magnitude lie below the 24 bits that a significand holds. -/
def excessBits (m : Nat) : Nat := Nat.log2 m - 23

/-- The 31 bits of the binary32 nearest to `n / d` units of 2^-149, ties to even; an overflow gives infinity (R9, R15).
The exponent and fraction of a pattern are adjacent, so a significand that rounds up to 2^24 carries into the exponent. -/
def roundBits (n d : Nat) : Nat :=
  min (excessBits (n / d) * 2 ^ 23 + roundDiv n (d * 2 ^ excessBits (n / d))) infBits

/-- The binary32 nearest to `(-1)^neg * n / d` units of 2^-149. -/
def roundTo (neg : Bool) (n d : Nat) : Word := withSign neg (roundBits n d)

/-- A signed infinity. -/
def infinity (neg : Bool) : Word := withSign neg infBits

/-- A signed zero. -/
def zero (neg : Bool) : Word := withSign neg 0

/-- A NaN with the sign and the fraction of a pattern, an empty fraction made non-empty: every NaN is the image of itself. -/
def toNaN (raw : Word) : Word :=
  if fractionField raw = 0 then raw ||| 0x7fc00000#32 else raw ||| 0x7f800000#32

/-- The NaN result of an operation: one of the NaNs, its bits unspecified (D1, U10; log 4). -/
def nanResult (op : Config.FpOp) (a b : Word) : Word := toNaN (Config.nanBits op a b)

/-- A sign and a magnitude as an integer. -/
def signed (neg : Bool) (mag : Nat) : Int := if neg then -(mag : Int) else (mag : Int)

/-- An exact sum in units of 2^-149, rounded. `negZero` is the sign of a zero sum (R132). -/
def roundSum (negZero : Bool) (z : Int) : Word :=
  if z = 0 then zero negZero else roundTo (decide (z < 0)) z.natAbs 1

/-- `add32` (R15): the exact sum rounded once; `inf - inf` and a NaN operand give a NaN. -/
def add32 (a b : Word) : Word :=
  match unpack a, unpack b with
  | .nan, _ => nanResult .add a b
  | _, .nan => nanResult .add a b
  | .inf s, .inf t => if s = t then infinity s else nanResult .add a b
  | .inf s, .fin _ _ => infinity s
  | .fin _ _, .inf t => infinity t
  | .fin s m, .fin t n => roundSum (s && t) (signed s m + signed t n)

/-- `sub32` (R15): the exact difference rounded once. -/
def sub32 (a b : Word) : Word :=
  match unpack a, unpack b with
  | .nan, _ => nanResult .sub a b
  | _, .nan => nanResult .sub a b
  | .inf s, .inf t => if s = t then nanResult .sub a b else infinity s
  | .inf s, .fin _ _ => infinity s
  | .fin _ _, .inf t => infinity (!t)
  | .fin s m, .fin t n => roundSum (s && !t) (signed s m - signed t n)

/-- `mul32` (R15): the exact product rounded once; zero times an infinity is a NaN. -/
def mul32 (a b : Word) : Word :=
  match unpack a, unpack b with
  | .nan, _ => nanResult .mul a b
  | _, .nan => nanResult .mul a b
  | .inf s, .inf t => infinity (s ^^ t)
  | .inf s, .fin t n => if n = 0 then nanResult .mul a b else infinity (s ^^ t)
  | .fin s m, .inf t => if m = 0 then nanResult .mul a b else infinity (s ^^ t)
  | .fin s m, .fin t n => roundTo (s ^^ t) (m * n) (2 ^ 149)

/-- `div32` (R15): the exact quotient rounded once; `0/0` and `inf/inf` are NaNs, another number over zero an infinity. -/
def div32 (a b : Word) : Word :=
  match unpack a, unpack b with
  | .nan, _ => nanResult .div a b
  | _, .nan => nanResult .div a b
  | .inf _, .inf _ => nanResult .div a b
  | .inf s, .fin t _ => infinity (s ^^ t)
  | .fin s _, .inf t => zero (s ^^ t)
  | .fin s m, .fin t n =>
    if n = 0 then if m = 0 then nanResult .div a b else infinity (s ^^ t)
    else roundTo (s ^^ t) (m * 2 ^ 149) n

/-- A finite pattern as an integer count of 2^-149; 0 where the pattern is no number. -/
def units (a : Word) : Int :=
  match unpack a with
  | .fin s m => signed s m
  | .inf _ => 0
  | .nan => 0

/-- `trunc` (R15): the integer part of a finite pattern, toward zero, on no machine width (D8). Its argument is finite
wherever a command uses it. -/
def trunc (a : Word) : Int := (units a).tdiv (2 ^ 149)

/-- `f32(2048.0)`, the table length as a binary32 (R8, R15). -/
def f32N : Word := 0x45000000#32

/-- `+0.0` (R102). -/
def f32Zero : Word := 0#32

end Sys2Proof.Machine
end

