-- ==== Sys2Proof/Machine/Flags.lean ====
section
/-! DEFINITION. The tests the commands make on binary32 values (R15). The block has no status flags, condition codes or
predicates (R27), so there is no flag computation: these are values inside a command and nothing keeps them. -/

namespace Sys2Proof.Machine

/-- `gt32` (R15): the IEEE ordered comparison `a > b`, false when either is a NaN. -/
def gt32 (a b : Word) : Bool :=
  match unpack a, unpack b with
  | .nan, _ => false
  | _, .nan => false
  | .inf s, .inf t => !s && t
  | .inf s, .fin _ _ => !s
  | .fin _ _, .inf t => t
  | .fin s m, .fin t n => decide (signed t n < signed s m)

/-- `ge32` (R15): the IEEE ordered comparison `a >= b`, false when either is a NaN. -/
def ge32 (a b : Word) : Bool :=
  match unpack a, unpack b with
  | .nan, _ => false
  | _, .nan => false
  | .inf s, .inf t => !s || t
  | .inf s, .fin _ _ => !s
  | .fin _ _, .inf t => t
  | .fin s m, .fin t n => decide (signed t n ≤ signed s m)

/-- `isfinite` (R15): neither an infinity nor a NaN. -/
def isFinite (a : Word) : Bool :=
  match unpack a with
  | .fin _ _ => true
  | .inf _ => false
  | .nan => false

/-- The pattern is a NaN. -/
def isNaN (a : Word) : Bool :=
  match unpack a with
  | .nan => true
  | .inf _ => false
  | .fin _ _ => false

end Sys2Proof.Machine
end

