-- ==== Sys2Proof/Machine/Operands.lean ====
section
/-! DEFINITION. The values the commands compute from their operands: the increment (R100), the advanced and wrapped phase
(R122, R123) and the table index (R121, R124). An operand itself is taken as its raw pattern (R73). -/

namespace Sys2Proof.Machine

/-- `INC_OF(f0, fs)` (R100): 2048 times f0, rounded, then over fs, rounded (D17). -/
def incOf (f0 fs : Word) : Word := div32 (mul32 f32N f0) fs

/-- The pre-wrap sum of a `RENDER` (R122). -/
def advance (idx inc : Word) : Word := add32 idx inc

/-- The single wrap (R123): 2048 is subtracted once when the sum is at least 2048. -/
def wrap (s : Word) : Word := if ge32 s f32N then sub32 s f32N else s

/-- The table index of a wrapped phase, where `trunc` gives one in [0, 2047] (R121, R124, D8). -/
def tableIndex (s : Word) : Option (Fin 2048) :=
  if isFinite s && decide (0 ≤ trunc s) && decide (trunc s ≤ 2047) then some (Fin.ofNat 2048 (trunc s).toNat) else none

end Sys2Proof.Machine
end

