-- ==== Sys2Proof/Machine/SineRom.lean ====
section
/-! DEFINITION. The reference table SINE_ROM_REF (R32), and SINE_ROM as the list of its differences from it (R30, R31, R50). -/

namespace Sys2Proof.Machine

/-- `Q[0..63]` of R32. -/
def quadrant0 : List Nat := [
   0x00000000, 0x3b490fc6, 0x3bc90f88, 0x3c16cb58, 0x3c490e90, 0x3c7b514b, 0x3c96c9b6, 0x3cafea69,
   0x3cc90ab0, 0x3ce22a7a, 0x3cfb49ba, 0x3d0a342f, 0x3d16c32c, 0x3d2351cb, 0x3d2fe007, 0x3d3c6dd5,
   0x3d48fb30, 0x3d55880e, 0x3d621469, 0x3d6ea038, 0x3d7b2b74, 0x3d83db0a, 0x3d8a200a, 0x3d9064b4,
   0x3d96a905, 0x3d9cecf9, 0x3da3308c, 0x3da973ba, 0x3dafb680, 0x3db5f8da, 0x3dbc3ac3, 0x3dc27c39,
   0x3dc8bd36, 0x3dcefdb7, 0x3dd53db9, 0x3ddb7d37, 0x3de1bc2e, 0x3de7fa9a, 0x3dee3876, 0x3df475c0,
   0x3dfab273, 0x3e007745, 0x3e039502, 0x3e06b26e, 0x3e09cf86, 0x3e0cec4a, 0x3e1008b7, 0x3e1324ca,
   0x3e164083, 0x3e195be0, 0x3e1c76de, 0x3e1f917b, 0x3e22abb6, 0x3e25c58c, 0x3e28defc, 0x3e2bf804,
   0x3e2f10a2, 0x3e3228d4, 0x3e354098, 0x3e3857ec, 0x3e3b6ecf, 0x3e3e853e, 0x3e419b37, 0x3e44b0b9]

/-- `Q[64..127]` of R32. -/
def quadrant1 : List Nat := [
   0x3e47c5c2, 0x3e4ada4f, 0x3e4dee60, 0x3e5101f1, 0x3e541501, 0x3e57278f, 0x3e5a3997, 0x3e5d4b1a,
   0x3e605c13, 0x3e636c83, 0x3e667c66, 0x3e698bba, 0x3e6c9a7f, 0x3e6fa8b2, 0x3e72b651, 0x3e75c35a,
   0x3e78cfcc, 0x3e7bdba4, 0x3e7ee6e1, 0x3e80f8c0, 0x3e827dc0, 0x3e840270, 0x3e8586ce, 0x3e870ada,
   0x3e888e93, 0x3e8a11f7, 0x3e8b9507, 0x3e8d17c0, 0x3e8e9a22, 0x3e901c2c, 0x3e919ddd, 0x3e931f35,
   0x3e94a031, 0x3e9620d2, 0x3e97a117, 0x3e9920fe, 0x3e9aa086, 0x3e9c1faf, 0x3e9d9e78, 0x3e9f1cdf,
   0x3ea09ae5, 0x3ea21887, 0x3ea395c5, 0x3ea5129f, 0x3ea68f12, 0x3ea80b1f, 0x3ea986c4, 0x3eab0201,
   0x3eac7cd4, 0x3eadf73c, 0x3eaf713a, 0x3eb0eacb, 0x3eb263ef, 0x3eb3dca5, 0x3eb554ec, 0x3eb6ccc3,
   0x3eb8442a, 0x3eb9bb1e, 0x3ebb31a0, 0x3ebca7af, 0x3ebe1d4a, 0x3ebf926f, 0x3ec1071e, 0x3ec27b55]

/-- `Q[128..191]` of R32. -/
def quadrant2 : List Nat := [
   0x3ec3ef15, 0x3ec5625c, 0x3ec6d529, 0x3ec8477c, 0x3ec9b953, 0x3ecb2aae, 0x3ecc9b8b, 0x3ece0bea,
   0x3ecf7bca, 0x3ed0eb2a, 0x3ed25a09, 0x3ed3c867, 0x3ed53641, 0x3ed6a399, 0x3ed8106b, 0x3ed97cb9,
   0x3edae880, 0x3edc53c1, 0x3eddbe79, 0x3edf28a9, 0x3ee0924f, 0x3ee1fb6a, 0x3ee363fa, 0x3ee4cbfe,
   0x3ee63375, 0x3ee79a5d, 0x3ee900b7, 0x3eea6681, 0x3eebcbbb, 0x3eed3063, 0x3eee9479, 0x3eeff7fb,
   0x3ef15aea, 0x3ef2bd43, 0x3ef41f07, 0x3ef58035, 0x3ef6e0cb, 0x3ef840c8, 0x3ef9a02d, 0x3efafef7,
   0x3efc5d27, 0x3efdbabb, 0x3eff17b2, 0x3f003a06, 0x3f00e7e4, 0x3f019573, 0x3f0242b1, 0x3f02ef9f,
   0x3f039c3d, 0x3f044889, 0x3f04f484, 0x3f05a02c, 0x3f064b82, 0x3f06f686, 0x3f07a136, 0x3f084b92,
   0x3f08f59b, 0x3f099f4e, 0x3f0a48ad, 0x3f0af1b7, 0x3f0b9a6b, 0x3f0c42c9, 0x3f0cead0, 0x3f0d9281]

/-- `Q[192..255]` of R32. -/
def quadrant3 : List Nat := [
   0x3f0e39da, 0x3f0ee0db, 0x3f0f8784, 0x3f102dd5, 0x3f10d3cd, 0x3f11796b, 0x3f121eb0, 0x3f12c39a,
   0x3f13682a, 0x3f140c5f, 0x3f14b039, 0x3f1553b7, 0x3f15f6d9, 0x3f16999f, 0x3f173c07, 0x3f17de12,
   0x3f187fc0, 0x3f19210f, 0x3f19c200, 0x3f1a6293, 0x3f1b02c6, 0x3f1ba299, 0x3f1c420c, 0x3f1ce11f,
   0x3f1d7fd1, 0x3f1e1e22, 0x3f1ebc12, 0x3f1f599f, 0x3f1ff6cb, 0x3f209393, 0x3f212ff9, 0x3f21cbfb,
   0x3f226799, 0x3f2302d3, 0x3f239da9, 0x3f24381a, 0x3f24d225, 0x3f256bcb, 0x3f26050a, 0x3f269de3,
   0x3f273656, 0x3f27ce61, 0x3f286605, 0x3f28fd41, 0x3f299415, 0x3f2a2a80, 0x3f2ac082, 0x3f2b561b,
   0x3f2beb4a, 0x3f2c800f, 0x3f2d1469, 0x3f2da859, 0x3f2e3bde, 0x3f2ecef7, 0x3f2f61a5, 0x3f2ff3e6,
   0x3f3085bb, 0x3f311722, 0x3f31a81d, 0x3f3238aa, 0x3f32c8c9, 0x3f33587a, 0x3f33e7bc, 0x3f34768f]

/-- `Q[256..319]` of R32. -/
def quadrant4 : List Nat := [
   0x3f3504f3, 0x3f3592e7, 0x3f36206c, 0x3f36ad7f, 0x3f373a23, 0x3f37c655, 0x3f385216, 0x3f38dd65,
   0x3f396842, 0x3f39f2ac, 0x3f3a7ca4, 0x3f3b0629, 0x3f3b8f3b, 0x3f3c17d9, 0x3f3ca003, 0x3f3d27b8,
   0x3f3daef9, 0x3f3e35c5, 0x3f3ebc1b, 0x3f3f41fc, 0x3f3fc767, 0x3f404c5c, 0x3f40d0da, 0x3f4154e1,
   0x3f41d870, 0x3f425b89, 0x3f42de29, 0x3f436051, 0x3f43e200, 0x3f446337, 0x3f44e3f5, 0x3f456439,
   0x3f45e403, 0x3f466354, 0x3f46e22a, 0x3f476085, 0x3f47de65, 0x3f485bca, 0x3f48d8b3, 0x3f495521,
   0x3f49d112, 0x3f4a4c87, 0x3f4ac77f, 0x3f4b41fa, 0x3f4bbbf8, 0x3f4c3578, 0x3f4cae79, 0x3f4d26fd,
   0x3f4d9f02, 0x3f4e1689, 0x3f4e8d90, 0x3f4f0417, 0x3f4f7a1f, 0x3f4fefa8, 0x3f5064af, 0x3f50d937,
   0x3f514d3d, 0x3f51c0c2, 0x3f5233c6, 0x3f52a649, 0x3f531849, 0x3f5389c7, 0x3f53fac3, 0x3f546b3b]

/-- `Q[320..383]` of R32. -/
def quadrant5 : List Nat := [
   0x3f54db31, 0x3f554aa4, 0x3f55b993, 0x3f5627fe, 0x3f5695e5, 0x3f570348, 0x3f577026, 0x3f57dc7f,
   0x3f584853, 0x3f58b3a1, 0x3f591e6a, 0x3f5988ad, 0x3f59f26a, 0x3f5a5ba0, 0x3f5ac450, 0x3f5b2c79,
   0x3f5b941a, 0x3f5bfb34, 0x3f5c61c7, 0x3f5cc7d1, 0x3f5d2d53, 0x3f5d924d, 0x3f5df6be, 0x3f5e5aa6,
   0x3f5ebe05, 0x3f5f20db, 0x3f5f8327, 0x3f5fe4e9, 0x3f604621, 0x3f60a6cf, 0x3f6106f2, 0x3f61668a,
   0x3f61c598, 0x3f62241a, 0x3f628210, 0x3f62df7b, 0x3f633c5a, 0x3f6398ac, 0x3f63f473, 0x3f644fac,
   0x3f64aa59, 0x3f650479, 0x3f655e0b, 0x3f65b710, 0x3f660f88, 0x3f666771, 0x3f66becc, 0x3f671599,
   0x3f676bd8, 0x3f67c187, 0x3f6816a8, 0x3f686b39, 0x3f68bf3c, 0x3f6912ae, 0x3f696591, 0x3f69b7e4,
   0x3f6a09a7, 0x3f6a5ad9, 0x3f6aab7b, 0x3f6afb8c, 0x3f6b4b0c, 0x3f6b99fb, 0x3f6be858, 0x3f6c3624]

/-- `Q[384..447]` of R32. -/
def quadrant6 : List Nat := [
   0x3f6c835e, 0x3f6cd007, 0x3f6d1c1d, 0x3f6d67a1, 0x3f6db293, 0x3f6dfcf2, 0x3f6e46be, 0x3f6e8ff8,
   0x3f6ed89e, 0x3f6f20b0, 0x3f6f6830, 0x3f6faf1b, 0x3f6ff573, 0x3f703b37, 0x3f708066, 0x3f70c501,
   0x3f710908, 0x3f714c7a, 0x3f718f57, 0x3f71d19f, 0x3f721352, 0x3f725470, 0x3f7294f8, 0x3f72d4eb,
   0x3f731447, 0x3f73530e, 0x3f73913f, 0x3f73ced9, 0x3f740bdd, 0x3f74484b, 0x3f748422, 0x3f74bf62,
   0x3f74fa0b, 0x3f75341d, 0x3f756d97, 0x3f75a67b, 0x3f75dec6, 0x3f76167a, 0x3f764d97, 0x3f76841b,
   0x3f76ba07, 0x3f76ef5b, 0x3f772417, 0x3f77583a, 0x3f778bc5, 0x3f77beb7, 0x3f77f110, 0x3f7822d1,
   0x3f7853f8, 0x3f788486, 0x3f78b47b, 0x3f78e3d6, 0x3f791298, 0x3f7940c0, 0x3f796e4e, 0x3f799b43,
   0x3f79c79d, 0x3f79f35e, 0x3f7a1e84, 0x3f7a4910, 0x3f7a7302, 0x3f7a9c59, 0x3f7ac516, 0x3f7aed37]

/-- `Q[448..511]` of R32. -/
def quadrant7 : List Nat := [
   0x3f7b14be, 0x3f7b3bab, 0x3f7b61fc, 0x3f7b87b2, 0x3f7baccd, 0x3f7bd14d, 0x3f7bf531, 0x3f7c187a,
   0x3f7c3b28, 0x3f7c5d3a, 0x3f7c7eb0, 0x3f7c9f8a, 0x3f7cbfc9, 0x3f7cdf6c, 0x3f7cfe73, 0x3f7d1cdd,
   0x3f7d3aac, 0x3f7d57de, 0x3f7d7474, 0x3f7d906e, 0x3f7dabcc, 0x3f7dc68c, 0x3f7de0b1, 0x3f7dfa38,
   0x3f7e1324, 0x3f7e2b72, 0x3f7e4323, 0x3f7e5a38, 0x3f7e70b0, 0x3f7e868b, 0x3f7e9bc9, 0x3f7eb069,
   0x3f7ec46d, 0x3f7ed7d4, 0x3f7eea9d, 0x3f7efcc9, 0x3f7f0e58, 0x3f7f1f49, 0x3f7f2f9d, 0x3f7f3f54,
   0x3f7f4e6d, 0x3f7f5ce9, 0x3f7f6ac7, 0x3f7f7808, 0x3f7f84ab, 0x3f7f90b1, 0x3f7f9c18, 0x3f7fa6e3,
   0x3f7fb10f, 0x3f7fba9e, 0x3f7fc38f, 0x3f7fcbe2, 0x3f7fd397, 0x3f7fdaaf, 0x3f7fe129, 0x3f7fe705,
   0x3f7fec43, 0x3f7ff0e3, 0x3f7ff4e6, 0x3f7ff84a, 0x3f7ffb11, 0x3f7ffd39, 0x3f7ffec4, 0x3f7fffb1]

/-- The first quadrant `Q[0..512]` listed in R32, row by row. -/
def quadrant : List Nat :=
  quadrant0 ++ quadrant1 ++ quadrant2 ++ quadrant3 ++ quadrant4 ++ quadrant5 ++ quadrant6 ++ quadrant7 ++ [0x3f800000]

/-- `Q[j]` as a binary32 pattern. -/
def quadrantEntry (j : Nat) : Word := BitVec.ofNat 32 (quadrant.getD j 0)

/-- The sign bit flipped, the `-` of R32. -/
def flipSign (w : Word) : Word := w ^^^ 0x80000000#32

/-- `SINE_ROM_REF[k]`, built from the first quadrant as R32 says. -/
def sineRomRef (k : Fin 2048) : Word :=
  if k.val ≤ 512 then quadrantEntry k.val
  else if k.val ≤ 1024 then quadrantEntry (1024 - k.val)
  else if k.val ≤ 1536 then flipSign (quadrantEntry (k.val - 1024))
  else flipSign (quadrantEntry (2048 - k.val))

/-- One listed entry of a table: its entry index and its word. The smallest unit of the store is the 32-bit entry,
which no access splits (R16, R50, R51; log 6). -/
abbrev RomCell := Nat × Word

/-- A listed entry that lies in the table and differs from the reference. -/
def romCellOk (c : RomCell) : Bool :=
  if h : c.1 < 2048 then decide (c.2 ≠ sineRomRef ⟨c.1, h⟩) else false

/-- The canonical form: indices strictly rise, every entry lies in the table and differs from the reference. -/
def romWf (rom : List RomCell) : Bool :=
  rom.all romCellOk && decide (rom.Pairwise (fun x y => x.1 < y.1))

/-- The entry of a table at an index: the listed one, else the reference (log 5). -/
def romRead (rom : List RomCell) (k : Fin 2048) : Word := (rom.lookup k.val).getD (sineRomRef k)

/-- A table as the list of its differences from the reference: how an instance with other contents is written down. -/
def romOfTable (table : Fin 2048 → Word) : List RomCell :=
  ((List.finRange 2048).filter (fun k => decide (table k ≠ sineRomRef k))).map (fun k => (k.val, table k))

end Sys2Proof.Machine
end

