-- ==== Sys2Proof/Machine/State.lean ====
section
/-! DEFINITION. The state of one oscillator instance (R20), the model's fault record (R150), the host's side of its two
ports (R187, R188), and the state right after reset (R35, R180). -/

namespace Sys2Proof.Machine

/-- The reasons of the fault record (R155). A fault is appended to `FAULTS` and does not stop the block (R150), so every
command answers a next state and no step answers the outcome `fault` (log 2). Safe: a claim about a sequence of commands
takes "no fault recorded" as its premise. -/
inductive Fault where
  /-- Code 1, raised by the reserved word (R151). Safe: it claims nothing of hardware behaviour. -/
  | illegalCmd
  /-- Code 2, raised by `INIT` when `fs` is not greater than zero (R153). Safe: the block is left without a value to use. -/
  | cfgFs
  /-- Code 3, raised by `SETF0` and `RENDER` while READY = 0 (R152). Safe: no unwritten register is given a value. -/
  | notReady
  /-- Code 4, raised by `RENDER` when the wrapped phase gives no table index (R154). Safe: the sample is a free value. -/
  | idxOob
  deriving DecidableEq, Repr

/-- The number R155 gives a reason. -/
def Fault.code : Fault → Nat
  | .illegalCmd => 1
  | .cfgFs => 2
  | .notReady => 3
  | .idxOob => 4

/-- Why a command would have no meaning here. Every command of the table has one, so no step answers a refusal. -/
inductive Refusal where
  /-- Raised by an arm of `exec` that has no meaning yet; there is none. Safe: nothing can be proved of such a command. -/
  | notModelled (mnemonic : String)
  deriving DecidableEq, Repr

/-- One event of the fault record: the reason, and the ordinal of the command that raised it, counted from 1 after the
last reset (R150). No address, operand or command bits are recorded (R155). -/
structure FaultEvent where
  reason : Fault
  ordinal : Nat
  deriving DecidableEq, Repr

/-- What the host presents at the command port: a command word (R70), or the reset event, which falls between commands (R180). -/
inductive PortEvent where
  | reset
  | command (cw : CommandWord)
  deriving DecidableEq, Repr

/-- The state of one instance. While `ready` is false the three registers are unwritten (R24): the words stored then
are a placeholder that `State.read` never gives (log 1). -/
structure State where
  /-- `IDX`, the phase accumulator, binary32 (R21). -/
  idx : Word
  /-- `INC`, the phase increment, binary32 (R22). -/
  inc : Word
  /-- `FS`, the sample rate, binary32 (R23). -/
  fs : Word
  /-- `READY`, the lifecycle bit (R24). -/
  ready : Bool
  /-- `SINE_ROM`, as its differences from the reference table (R30, R31; log 5). -/
  rom : List RomCell
  /-- `FAULTS`, the model's record, oldest first (R150). -/
  faults : List FaultEvent
  /-- The number of commands accepted since the last reset: the ordinal of the last one (R150; log 9). -/
  commands : Nat
  /-- What the host has presented and the block has not yet taken, next first (R58, R187; log 7). -/
  port : List PortEvent
  /-- The `SAMPLE` words returned so far, oldest first (R75, R188; log 8). -/
  samples : List Word
  /-- The model's own: how many UNSPECIFIED words have been drawn (R17; log 3). -/
  draws : Nat
  deriving DecidableEq, Repr

/-- The word a register stores while it is unwritten. DESIGN CHOICE: the spec gives it no value and no command reads it (log 1). -/
def unwrittenWord : Word := 0#32

/-- The machine right after reset (R35, R180, R181): UNINIT, the registers unwritten, the table valid, no fault recorded,
waiting for its first command. -/
def State.reset : State where
  idx := unwrittenWord
  inc := unwrittenWord
  fs := unwrittenWord
  ready := false
  rom := []
  faults := []
  commands := 0
  port := []
  samples := []
  draws := 0

end Sys2Proof.Machine
end

