-- ==== Sys2Proof/Machine/Ops.lean ====
section
/-! DEFINITION. The named operations over the state: registers, the table, the fault record, the two ports, reset. -/

namespace Sys2Proof.Machine

/-- The registers by name (R14): the block has no numbered ones (R25). -/
inductive Reg where
  | idx
  | inc
  | fs
  deriving DecidableEq, Repr

/-- `x[R]` (R14): the register's value, none while it is unwritten, that is while READY = 0 (R24). -/
def State.read (s : State) : Reg → Option Word
  | .idx => if s.ready then some s.idx else none
  | .inc => if s.ready then some s.inc else none
  | .fs => if s.ready then some s.fs else none

/-- `x[R] <- v` (R14): a whole 32-bit write (R53). -/
def State.write (s : State) (r : Reg) (v : Word) : State :=
  match r with
  | .idx => { s with idx := v }
  | .inc => { s with inc := v }
  | .fs => { s with fs := v }

/-- `READY <- 1` (R24). -/
def State.makeReady (s : State) : State := { s with ready := true }

/-- `READY <- 0`, which makes IDX, INC and FS unwritten (R24, R102). -/
def State.discard (s : State) : State :=
  { s with ready := false, idx := unwrittenWord, inc := unwrittenWord, fs := unwrittenWord }

/-- A command is accepted: it takes the next ordinal (R150). Every meaning starts with it. -/
def State.accept (s : State) : State := { s with commands := s.commands + 1 }

/-- `raise Fault(r)` (R17, R150): the event is appended with the ordinal of the command at work. Nothing else happens: no
state is saved, no mode changes and control goes nowhere (R157); there is no return from it (R158). -/
def State.raise (s : State) (r : Fault) : State := { s with faults := s.faults ++ [⟨r, s.commands⟩] }

/-- `MemRead(k, 4)` (R16): the whole entry of `SINE_ROM` at entry index `k`. -/
def State.memRead (s : State) (k : Fin 2048) : Word := romRead s.rom k

/-- `SAMPLE <- w`: one word returned on the sample port (R75). -/
def State.respond (s : State) (w : Word) : State := { s with samples := s.samples ++ [w] }

/-- `SAMPLE <- UNSPECIFIED`: a word of which no bit can be proved (R17; log 3). DESIGN CHOICE, unsafe: the word is a function
of `draws` alone. The spec leaves open how the words of two states, or of two instances (R170; log 13), relate; here they are
equal where the two counts are equal. -/
def State.respondUnspecified (s : State) : State :=
  { s.respond (Config.freeSample s.draws) with draws := s.draws + 1 }

/-- The reset event (R180): every piece of state as after reset. It returns no response and raises no fault. The table
keeps its contents (R33); what lies outside the block stays: what the host presents next and the samples it holds (log 10). -/
def State.resetEvent (s : State) : State :=
  { State.reset with rom := s.rom, port := s.port, samples := s.samples, draws := s.draws }

/-- The host presents an event at the command port, after those it has presented before (R58, R187). -/
def State.present (s : State) (e : PortEvent) : State := { s with port := s.port ++ [e] }

end Sys2Proof.Machine
end

