-- ==== Sys2Proof/Machine/Configure.lean ====
section
/-! DEFINITION. The configuration commands `INIT` and `SETF0` (40_config). -/

namespace Sys2Proof.Machine

/-- `INIT fs, f0` (R102, R103, R105): legal in both lifecycle states; `f0` is not validated (R104). -/
def execInit (fs f0 : Word) (s : State) : Host.Outcome State Fault Refusal :=
  if gt32 fs f32Zero then
    .next ((((s.accept.write .fs fs).write .inc (incOf f0 fs)).write .idx f32Zero).makeReady)
  else
    .next (s.accept.discard.raise .cfgFs)

/-- `SETF0 f0` (R106, R107): the increment changes, the phase does not; `NOT_READY` before construction (R152). -/
def execSetf0 (f0 : Word) (s : State) : Host.Outcome State Fault Refusal :=
  match s.accept.read .fs with
  | some fs => .next (s.accept.write .inc (incOf f0 fs))
  | none => .next (s.accept.raise .notReady)

end Sys2Proof.Machine
end

