-- ==== Sys2Proof/Machine/Render.lean ====
section
/-! DEFINITION. The sample command `RENDER` (41_render). -/

namespace Sys2Proof.Machine

/-- The end of a `RENDER` whose wrapped phase is `p` (R120): IDX is written in every case; the sample is the table entry at
the truncated phase, with no interpolation (R5, R121), or UNSPECIFIED with the fault `IDX_OOB` (R124). -/
def State.sampleAt (s : State) (p : Word) : State :=
  match tableIndex p with
  | some k => (s.write .idx p).respond ((s.write .idx p).memRead k)
  | none => ((s.write .idx p).raise .idxOob).respondUnspecified

/-- `RENDER` (R120): advance, wrap once, truncate, read; `NOT_READY` before construction (R152). -/
def execRender (s : State) : Host.Outcome State Fault Refusal :=
  match s.accept.read .idx, s.accept.read .inc with
  | some idx, some inc => .next (s.accept.sampleAt (wrap (advance idx inc)))
  | _, _ => .next ((s.accept.raise .notReady).respondUnspecified)

end Sys2Proof.Machine
end

