-- ==== Sys2Proof/Machine/Reserved.lean ====
section
/-! DEFINITION. The reserved encoding (R77). -/

namespace Sys2Proof.Machine

/-- The reserved word (R151): the fault `ILLEGAL_CMD`, no state change and no response. -/
def execReserved (s : State) : Host.Outcome State Fault Refusal := .next (s.accept.raise .illegalCmd)

end Sys2Proof.Machine
end

