-- ==== Sys2Proof/Machine/Dispatch.lean ====
section
/-! DEFINITION. The meaning of each command: one arm per constructor of `Instr`. -/

namespace Sys2Proof.Machine

def exec (i : Instr) (s : State) : Host.Outcome State Fault Refusal :=
  match i with
  | .init fs f0 => Sys2Proof.Machine.execInit fs f0 s
  | .setf0 f0 => Sys2Proof.Machine.execSetf0 f0 s
  | .render => Sys2Proof.Machine.execRender s
  | .reserved => Sys2Proof.Machine.execReserved s

end Sys2Proof.Machine
end

