-- ==== Sys2Proof/Machine/Step.lean ====
section
/-! DEFINITION. One step of the machine: the next event at the command port (R26, R58). -/

namespace Sys2Proof.Machine

/-- One step: nothing happens without an event (R167); a reset event falls between commands (R180); a command word is taken
from the port, decoded (R76) and performed whole before the next (R58). -/
def step (s : State) : Host.Outcome State Fault Refusal :=
  match s.port with
  | [] => .next s
  | .reset :: rest => .next { s with port := rest }.resetEvent
  | .command cw :: rest => exec (decode cw) { s with port := rest }

/-- `s` with the command word numbered `w` (its bits above `nbits` zero) as the next event at the port, which is where a
step takes its next command (log 7). -/
def State.withFetchWord (s : State) (nbits w : Nat) : State :=
  { s with port := .command (BitVec.ofNat 66 (w % 2 ^ nbits)) :: s.port }

end Sys2Proof.Machine
end

