-- ==== Sys2Proof/Machine/Assembler.lean ====
section
/-! DEFINITION. The assembly syntax of NCO-CMD version 1 (R79, R80; log 18): one command per line, a comment from `;` to
the end of the line, an operand a decimal number or a raw `#0xHHHHHHHH` pattern. There are no pseudo-instructions. -/

namespace Sys2Proof.Machine

/-- The characters of a line before its comment. -/
def stripComment (line : List Char) : List Char := line.takeWhile (fun c => c != ';')

/-- A finished token, if any character of it was read. -/
def flushToken (cur : List Char) : List (List Char) := if cur.isEmpty then [] else [cur]

/-- The tokens of a line: runs of characters between white space, a comma a token of its own. -/
def tokens (cur : List Char) : List Char → List (List Char)
  | [] => flushToken cur
  | c :: rest =>
    if c = ' ' || c = '\t' || c = '\r' then flushToken cur ++ tokens [] rest
    else if c = ',' then flushToken cur ++ [','] :: tokens [] rest
    else tokens (cur ++ [c]) rest

/-- The value of a hexadecimal digit, in either case. -/
def hexDigit (c : Char) : Option Nat :=
  let n := c.toNat
  if 48 ≤ n ∧ n ≤ 57 then some (n - 48)
  else if 97 ≤ n ∧ n ≤ 102 then some (n - 87)
  else if 65 ≤ n ∧ n ≤ 70 then some (n - 55)
  else none

/-- The value of a decimal digit. -/
def decDigit (c : Char) : Option Nat :=
  let n := c.toNat
  if 48 ≤ n ∧ n ≤ 57 then some (n - 48) else none

/-- The number a run of digits writes in a base, after a number read so far. -/
def digitsFrom (base : Nat) (digit : Char → Option Nat) (acc : Nat) : List Char → Option Nat
  | [] => some acc
  | c :: rest => (digit c).bind (fun d => digitsFrom base digit (acc * base + d) rest)

/-- The word that eight hexadecimal digits write. -/
def hexWord (digits : List Char) : Option Word :=
  if digits.length = 8 then (digitsFrom 16 hexDigit 0 digits).map (BitVec.ofNat 32) else none

/-- The binary32 nearest to an unsigned decimal number with a sign before it, ties to even (R79): `digits / 10^places`. -/
def decimalWord (neg : Bool) (text : List Char) : Option Word :=
  if text = ['i', 'n', 'f'] then some (infinity neg)
  else
    let whole := text.takeWhile (fun c => c != '.')
    let places := (text.dropWhile (fun c => c != '.')).drop 1
    let pointed := text.any (fun c => c = '.')
    if whole.isEmpty || (pointed && places.isEmpty) then none
    else (digitsFrom 10 decDigit 0 (whole ++ places)).map (fun n => roundTo neg (n * 2 ^ 149) (10 ^ places.length))

/-- An operand (R79): a raw pattern, `nan`, or a decimal number with an optional minus sign. -/
def operand : List Char → Option Word
  | '#' :: '0' :: 'x' :: digits => hexWord digits
  | '-' :: text => decimalWord true text
  | text => if text = ['n', 'a', 'n'] then some 0x7fc00000#32 else decimalWord false text

/-- The reserved word as a listing prints it, `0x0_AAAAAAAA_BBBBBBBB` (R70, R79). -/
def reservedWord : List Char → Option Instr
  | '0' :: 'x' :: '0' :: '_' :: rest =>
    match rest.drop 8 with
    | '_' :: b => (hexWord (rest.take 8)).bind (fun _ => (hexWord b).map (fun _ => Instr.reserved))
    | _ => none
  | _ => none

/-- What a line says: a command, or nothing (an empty line or a comment). -/
inductive Line where
  | blank
  | command (i : Instr)
  deriving DecidableEq, Repr

/-- The command of a line's tokens; mnemonics are case-insensitive (R79). -/
def parseTokens : List (List Char) → Option Line
  | [] => some .blank
  | [m] => if m.map Char.toLower = ['r', 'e', 'n', 'd', 'e', 'r'] then some (.command .render) else none
  | [m, a] =>
    if m.map Char.toLower = ['s', 'e', 't', 'f', '0'] then (operand a).map (fun f0 => .command (.setf0 f0))
    else if m = ['.', 'c', 'm', 'd'] then (reservedWord a).map .command
    else none
  | [m, a, comma, b] =>
    if m.map Char.toLower = ['i', 'n', 'i', 't'] && comma == [','] then
      (operand a).bind (fun fs => (operand b).map (fun f0 => .command (.init fs f0)))
    else none
  | _ => none

/-- One line of a program (R79); none is a syntax error. -/
def parseLine (line : List Char) : Option Line := parseTokens (tokens [] (stripComment line))

/-- The canonical command words of a program's lines (R74, R79); none is a syntax error in some line. -/
def assemble : List (List Char) → Option (List CommandWord)
  | [] => some []
  | line :: rest =>
    match parseLine line with
    | none => none
    | some .blank => assemble rest
    | some (.command i) => (assemble rest).map (fun words => encode i :: words)

/-- A hexadecimal digit in lower case. -/
def hexChar (n : Nat) : Char := if n < 10 then Char.ofNat (48 + n) else Char.ofNat (87 + n)

/-- The hexadecimal digits of a number, as many as asked, the most significant first. -/
def hexDigits : Nat → Nat → List Char
  | 0, _ => []
  | k + 1, n => hexDigits k (n / 16) ++ [hexChar (n % 16)]

/-- A word as a raw operand, `#0xHHHHHHHH` (R79). -/
def rawOperand (w : Word) : List Char := ['#', '0', 'x'] ++ hexDigits 8 w.toNat

/-- A command word as a line of a listing (R79): its operands as raw patterns, a reserved word as `.cmd 0x0_A_B`. -/
def listing (cw : CommandWord) : List Char :=
  match decode cw with
  | .init fs f0 => ['I', 'N', 'I', 'T', ' '] ++ rawOperand fs ++ [',', ' '] ++ rawOperand f0
  | .setf0 f0 => ['S', 'E', 'T', 'F', '0', ' '] ++ rawOperand f0
  | .render => ['R', 'E', 'N', 'D', 'E', 'R']
  | .reserved =>
    ['.', 'c', 'm', 'd', ' ', '0', 'x', '0', '_'] ++ hexDigits 8 (aField cw).toNat ++ ['_'] ++ hexDigits 8 (bField cw).toNat

end Sys2Proof.Machine
end

