-- ==== Sys2Proof/Machine/HostPort.lean ====
section
/-! DEFINITION. The host's side: what it may present (R187), and how a binding that splits a word into bytes orders them
(R11, R51). Nothing inside the block depends on a binding (D11; log 14). -/

namespace Sys2Proof.Machine

/-- The host presents a command in its canonical encoding (R74, R187). -/
def State.presentCommand (s : State) (i : Instr) : State := s.present (.command (encode i))

/-- The host presents the reset event (R180, R187). -/
def State.presentReset (s : State) : State := s.present .reset

/-- The four bytes of a word, in the order of HOST_BYTE_ORDER (R51): the first listed is sent first. -/
def splitWord (order : Config.ByteOrder) (w : Word) : List Byte :=
  let little := [w.extractLsb' 0 8, w.extractLsb' 8 8, w.extractLsb' 16 8, w.extractLsb' 24 8]
  match order with
  | .little => little
  | .big => little.reverse

/-- The word that four bytes make, the most significant first. -/
def fourBytes (b3 b2 b1 b0 : Byte) : Word := b3 ++ (b2 ++ (b1 ++ b0))

/-- The word that a binding's bytes carry; a word is exactly four of them (R51: no access moves part of a word). -/
def joinWord (order : Config.ByteOrder) : List Byte → Option Word
  | [p, q, r, s] =>
    match order with
    | .little => some (fourBytes s r q p)
    | .big => some (fourBytes p q r s)
  | _ => none

end Sys2Proof.Machine
end

