-- ==== Sys2Proof/Machine/Instances.lean ====
section
/-! DEFINITION. Several oscillator instances (R170, D24): each has its own registers, command port and fault record, and no
state is shared. A physically shared read-only table cannot be observed, since nothing writes it.
DESIGN CHOICE, unsafe: all instances draw UNSPECIFIED words from one free value by their own counts, so two instances with equal counts
draw equal words, and equal operations give them equal NaNs (logs 3, 4 and 13); the spec relates neither. -/

namespace Sys2Proof.Machine

/-- The instances of a system, one state each. An instance has no identifier of its own; the host names it by its place. -/
abbrev Voices := List State

/-- The instance at place `k` takes the next event of its own command port; a place that holds none does nothing. -/
def stepVoice (voices : Voices) (k : Nat) : Host.Outcome Voices Fault Refusal :=
  match voices[k]? with
  | none => .next voices
  | some s =>
    match step s with
    | .next t => .next (voices.set k t)
    | .fault r => .fault r
    | .refused r => .refused r

end Sys2Proof.Machine
end

