-- ==== Sys2Proof/Safety.lean ====
section
/-! DEFINITION. The terms in which claims are stated: the real value of a pattern, correct rounding, the admissible tables
(R31), the invariant of the machine, runs of commands and what is observed of a run (R188). -/

namespace Sys2Proof.Machine

/-! ## Values -/

/-- The rational value of a finite pattern (R15, R73); 0 where the pattern is no number. -/
def value (w : Word) : ℚ := (units w : ℚ) / 2 ^ 149

/-- `r` is the binary32 that rounding to nearest, ties to even, gives for the exact value `x` (R9, R15): never a NaN;
infinite exactly from half a step above the greatest finite value on; with the sign of `x`; and otherwise no finite pattern
is nearer, and one as near with another value only where the last bit of `r` is 0. -/
def RoundsTo (x : ℚ) (r : Word) : Prop :=
  isNaN r = false ∧
    (isFinite r = false ↔ 2 ^ 128 - 2 ^ 103 ≤ |x|) ∧
    (x < 0 → signBit r = true) ∧ (0 < x → signBit r = false) ∧
    (isFinite r = true → ∀ w : Word, isFinite w = true →
      |value r - x| ≤ |value w - x| ∧ (|value r - x| = |value w - x| → value w ≠ value r → r.getLsbD 0 = false))

/-- A phase or an increment in `[0, 2048)` (R21, R127); `-0.0` counts as zero. -/
def InPhase (w : Word) : Prop := isFinite w = true ∧ 0 ≤ value w ∧ value w < 2048

/-! ## The table (R31) -/

/-- P1: every entry is within 1e-5 of the sine. -/
def NearSine (table : Fin 2048 → Word) : Prop :=
  ∀ i : Fin 2048, |((value (table i) : ℚ) : ℝ) - Real.sin (2 * Real.pi * (i.val : ℝ) / 2048)| ≤ 1 / 100000

/-- P2: every entry is finite and lies in [-1, 1]. -/
def InUnitRange (table : Fin 2048 → Word) : Prop :=
  ∀ i : Fin 2048, isFinite (table i) = true ∧ -1 ≤ value (table i) ∧ value (table i) ≤ 1

/-- P3: entry 0 is `+0.0`. -/
def StartsAtZero (table : Fin 2048 → Word) : Prop := table 0 = f32Zero

/-- A table that may serve as SINE_ROM (R31). -/
def AdmissibleTable (table : Fin 2048 → Word) : Prop := NearSine table ∧ InUnitRange table ∧ StartsAtZero table

/-! ## The invariant -/

/-- The fault record is well formed: ordinals count from 1, none lies after the last command accepted, and each command
raised at most one fault (R150, R156). -/
def FaultsOk (s : State) : Prop :=
  (∀ e ∈ s.faults, 1 ≤ e.ordinal ∧ e.ordinal ≤ s.commands) ∧ s.faults.Pairwise (fun x y => x.ordinal < y.ordinal)

/-- What every step keeps: the table's canonical form, a sample rate greater than zero once constructed (R23), a phase that
is never `-0.0` (R132), and a well-formed fault record. -/
def State.Inv (s : State) : Prop :=
  romWf s.rom = true ∧ (s.ready = true → gt32 s.fs f32Zero = true) ∧ s.idx ≠ 0x80000000#32 ∧ FaultsOk s

/-! ## Runs -/

/-- A run with no fault recorded, the premise of every claim about a sequence of commands (R150, U18). -/
def Safe (s : State) : Prop := s.faults = []

/-- Commands performed one after another, each whole before the next (R58). -/
def perform : List Instr → State → Host.Outcome State Fault Refusal
  | [], s => .next s
  | i :: rest, s =>
    match exec i s with
    | .next t => perform rest t
    | .fault r => .fault r
    | .refused r => .refused r

/-- Commands and resets performed one after another, as the host presents them (R58, R180, R188). -/
def performEvents : List PortEvent → State → Host.Outcome State Fault Refusal
  | [], s => .next s
  | .reset :: rest, s => performEvents rest s.resetEvent
  | .command cw :: rest, s =>
    match exec (decode cw) s with
    | .next t => performEvents rest t
    | .fault r => .fault r
    | .refused r => .refused r

/-- `zs` is an interleaving of whole elements of `xs` and `ys`, each in its own order (R59, U12). -/
inductive Interleaves {α : Type} : List α → List α → List α → Prop where
  | nil : Interleaves [] [] []
  | left {x : α} {xs ys zs : List α} : Interleaves xs ys zs → Interleaves (x :: xs) ys (x :: zs)
  | right {y : α} {xs ys zs : List α} : Interleaves xs ys zs → Interleaves xs (y :: ys) (y :: zs)

/-- The fault a command raises in a state, at most one, by the checks of R156 in their order. -/
def faultOf (i : Instr) (s : State) : Option Fault :=
  match i with
  | .reserved => some .illegalCmd
  | .setf0 _ => if s.ready then none else some .notReady
  | .init fs _ => if gt32 fs f32Zero then none else some .cfgFs
  | .render =>
    if s.ready then
      match tableIndex (wrap (advance s.idx s.inc)) with
      | some _ => none
      | none => some .idxOob
    else some .notReady

/-- What is observed of a run (R188): the samples in order, the final registers and READY, and the fault record. -/
structure Observation where
  samples : List Word
  idx : Option Word
  inc : Option Word
  fs : Option Word
  ready : Bool
  faults : List FaultEvent
  deriving DecidableEq, Repr

/-- The observation of a run that ended in a state (R188). -/
def State.observe (s : State) : Observation where
  samples := s.samples
  idx := s.read .idx
  inc := s.read .inc
  fs := s.read .fs
  ready := s.ready
  faults := s.faults

end Sys2Proof.Machine
end

