-- ==== Sys2Proof/Certificates/Slice0/Obligations.lean ====
section
/-! DEFINITION. The statements for the provers. Each is about every state unless it says otherwise; the docstring names the
rule of spec/ it formalises. A free value (Config.freeSample, Config.nanBits) is never given a value: such a word stands
under "there is". -/

open Sys2Proof Sys2Proof.Machine

/-! ## Encoding, stepping, reset -/

/-- R71, R72, R74, R76: the canonical word of every command decodes to that command, at every operand pattern. -/
def Obligations.DecodeOfEncode : Prop := ∀ i : Instr, decode (encode i) = i

/-- R74: encoding what a word decodes to gives the word with its ignored fields set to zero. -/
def Obligations.EncodeOfDecodeIsCanonical : Prop :=
  ∀ cw : CommandWord, encode (decode cw) =
    cw &&& (if opField cw = 0b01#2 then BitVec.allOnes 66
      else if opField cw = 0b10#2 then 0x3ffffffff00000000#66 else 0x30000000000000000#66)

/-- R76, R77: every word is OP, A and B; OP = 00 is the only reserved encoding, whatever A and B hold, and every other
word is exactly one of the three commands. -/
def Obligations.DecodeIsTotal : Prop :=
  (∀ cw : CommandWord, ∃ op a b, cw = commandWord op a b) ∧
    ∀ a b : Word, decode (commandWord 0b01#2 a b) = .init a b ∧ decode (commandWord 0b10#2 a b) = .setf0 a ∧
      decode (commandWord 0b11#2 a b) = .render ∧ decode (commandWord 0b00#2 a b) = .reserved

/-- R81 and the decoding vectors of 95_test_vectors 2.5. -/
def Obligations.EncodingExamples : Prop :=
  encode (.init 0x473b8000#32 0x43dc0000#32) = 0x1473b800043dc0000#66 ∧
    encode (.init 0x473b8000#32 0x46bb8000#32) = 0x1473b800046bb8000#66 ∧
    encode (.init 0x473b8000#32 0x463b8000#32) = 0x1473b8000463b8000#66 ∧
    encode (.init 0x45000000#32 0x44ffffff#32) = 0x14500000044ffffff#66 ∧
    encode (.setf0 0x445c0000#32) = 0x2445c000000000000#66 ∧
    encode (.setf0 0x45000000#32) = 0x24500000000000000#66 ∧
    encode .render = 0x30000000000000000#66 ∧ encode .reserved = 0#66 ∧
    decode 0x1473b800043dc0000#66 = .init 0x473b8000#32 0x43dc0000#32 ∧
    decode 0x2445c0000ffffffff#66 = .setf0 0x445c0000#32 ∧ decode 0x3123456789abcdef0#66 = .render ∧
    decode 0x0ffffffffffffffff#66 = .reserved

/-- R26, R58: when a command word is next at the port, the step takes it from the port and performs the instruction it
decodes to; the numbered word of the host's table, put at the port, is performed as `decodeTableWord` reads it. -/
def Obligations.StepRunsDecodedCommand : Prop :=
  (∀ (s : State) (cw : CommandWord) (rest : List PortEvent), s.port = .command cw :: rest →
      step s = exec (decode cw) { s with port := rest }) ∧
    ∀ (s : State) (nbits w : Nat) (i : Instr), decodeTableWord nbits w = some i →
      step (s.withFetchWord nbits w) = exec i s

/-- R167: without an event at the port the block holds its state unchanged. -/
def Obligations.StepHoldsStateWithoutEvent : Prop := ∀ s : State, s.port = [] → step s = .next s

/-- R180: the reset event puts the block in UNINIT with the registers unwritten and the fault record empty, keeps the
table's contents, returns no response and raises no fault. That the samples already returned stay with the host is log 10. -/
def Obligations.ResetEventLeavesUninit : Prop :=
  ∀ (s : State) (rest : List PortEvent), s.port = .reset :: rest →
    ∃ t, step s = .next t ∧ t.ready = false ∧ (∀ r, t.read r = none) ∧ (∀ k, t.memRead k = s.memRead k) ∧
      t.faults = [] ∧ t.commands = 0 ∧ t.samples = s.samples ∧ t.port = rest

/-- R35, R181: after reset READY = 0, every register is unwritten, FAULTS is empty, and the block waits for its first command. -/
def Obligations.ResetStateValues : Prop :=
  State.reset.ready = false ∧ (∀ r, State.reset.read r = none) ∧ State.reset.faults = [] ∧ State.reset.port = [] ∧
    State.reset.samples = [] ∧ step State.reset = .next State.reset

/-! ## The commands -/

/-- R102, R104, R105: with `fs` greater than zero `INIT` constructs, in either lifecycle state and for every `f0`: FS, INC
and IDX are written, READY becomes 1, and nothing else changes; the fault record is kept. -/
def Obligations.InitConstructs : Prop :=
  ∀ (fs f0 : Word) (s : State), gt32 fs f32Zero = true →
    exec (.init fs f0) s = .next { s with
      fs := fs, inc := div32 (mul32 f32N f0) fs, idx := 0#32, ready := true, commands := s.commands + 1 }

/-- R103, R153, R155: otherwise it raises `CFG_FS` and leaves the block UNINIT, the registers unwritten, nothing else changed. -/
def Obligations.InitRejectsSampleRate : Prop :=
  ∀ (fs f0 : Word) (s : State), gt32 fs f32Zero = false →
    ∃ t, exec (.init fs f0) s = .next t ∧ t.ready = false ∧ (∀ r, t.read r = none) ∧
      t.faults = s.faults ++ [⟨.cfgFs, s.commands + 1⟩] ∧ t.commands = s.commands + 1 ∧ t.rom = s.rom ∧
      (∀ k, t.memRead k = s.memRead k) ∧ t.samples = s.samples ∧ t.port = s.port ∧ t.draws = s.draws

/-- R103: `INIT` accepts `fs` exactly when it is greater than zero, that is for the positive subnormals, the positive normals
and `+inf`, the patterns 0x00000001 to 0x7f800000. For every other pattern it raises `CFG_FS` and leaves the block UNINIT. -/
def Obligations.InitAcceptsPositiveRates : Prop :=
  ∀ (fs f0 : Word) (s : State), ∃ t, exec (.init fs f0) s = .next t ∧
    (gt32 fs f32Zero = true ↔ 1 ≤ fs.toNat ∧ fs.toNat ≤ 0x7f800000) ∧
    (1 ≤ fs.toNat ∧ fs.toNat ≤ 0x7f800000 → t.ready = true ∧ t.read .fs = some fs ∧ t.faults = s.faults) ∧
    (fs.toNat = 0 ∨ 0x7f800000 < fs.toNat → t.ready = false ∧ (∀ r, t.read r = none) ∧
      t.faults = s.faults ++ [⟨.cfgFs, s.commands + 1⟩])

/-- R106: in READY `SETF0` writes INC with `INC_OF(f0, FS)` and changes nothing else. -/
def Obligations.SetF0WritesIncrement : Prop :=
  ∀ (f0 : Word) (s : State), s.ready = true →
    exec (.setf0 f0) s = .next { s with inc := div32 (mul32 f32N f0) s.fs, commands := s.commands + 1 }

/-- R152: while READY = 0 `SETF0` and `RENDER` raise `NOT_READY` and change no state; `RENDER` returns some word, of which
nothing is said (log 3). -/
def Obligations.NotReadyFaults : Prop :=
  (∀ (f0 : Word) (s : State), s.ready = false →
      exec (.setf0 f0) s = .next { s with
        commands := s.commands + 1, faults := s.faults ++ [⟨.notReady, s.commands + 1⟩] }) ∧
    ∀ s : State, s.ready = false →
      ∃ (w : Word) (d : Nat), exec .render s = .next { s with
        commands := s.commands + 1, faults := s.faults ++ [⟨.notReady, s.commands + 1⟩],
        samples := s.samples ++ [w], draws := d }

/-- R120, R121: in READY, when the wrapped phase gives the index `k`, `RENDER` writes IDX with it and returns the entry of
the table at `k`, bit for bit; nothing else changes. -/
def Obligations.RenderReturnsEntry : Prop :=
  ∀ (s : State) (k : Fin 2048), s.ready = true → isFinite (wrap (add32 s.idx s.inc)) = true →
    trunc (wrap (add32 s.idx s.inc)) = (k.val : Int) →
    exec .render s = .next { s with
      idx := wrap (add32 s.idx s.inc), commands := s.commands + 1, samples := s.samples ++ [s.memRead k] }

/-- R154: in READY, when the wrapped phase gives no index in [0, 2047], `RENDER` raises `IDX_OOB`, still writes IDX, and
returns some word, of which nothing is said (log 3). -/
def Obligations.RenderOutOfTable : Prop :=
  ∀ s : State, s.ready = true →
    (isFinite (wrap (add32 s.idx s.inc)) = false ∨ trunc (wrap (add32 s.idx s.inc)) < 0 ∨
      2047 < trunc (wrap (add32 s.idx s.inc))) →
    ∃ (w : Word) (d : Nat), exec .render s = .next { s with
      idx := wrap (add32 s.idx s.inc), commands := s.commands + 1,
      faults := s.faults ++ [⟨.idxOob, s.commands + 1⟩], samples := s.samples ++ [w], draws := d }

/-- R151: the reserved word raises `ILLEGAL_CMD`, changes no state and returns no response, in every state. -/
def Obligations.ReservedWordFaults : Prop :=
  ∀ s : State, exec .reserved s = .next { s with
    commands := s.commands + 1, faults := s.faults ++ [⟨.illegalCmd, s.commands + 1⟩] }

/-! ## The whole machine -/

/-- R150: a fault does not stop the block: every step, from every state, answers a next state. -/
def Obligations.NoStepStops : Prop := ∀ s : State, ∃ t, step s = .next t

/-- R156: a command raises at most one fault, by the checks in their order; the record only grows, and an event holds the
ordinal of the command. -/
def Obligations.OneFaultPerCommand : Prop :=
  ∀ (i : Instr) (s : State), ∃ t, exec i s = .next t ∧ t.commands = s.commands + 1 ∧
    t.faults = s.faults ++ (faultOf i s).toList.map (fun r => ⟨r, s.commands + 1⟩)

/-- R28, R33, R50, R75: what each command leaves unchanged, in every state. No command writes the table, and only `RENDER`
returns a sample, exactly one. -/
def Obligations.CommandFrames : Prop :=
  ∀ (i : Instr) (s t : State), exec i s = .next t →
    t.rom = s.rom ∧ (∀ k, t.memRead k = s.memRead k) ∧ t.port = s.port ∧
      match i with
      | .init _ _ => t.samples = s.samples ∧ t.draws = s.draws
      | .setf0 _ => t.idx = s.idx ∧ t.fs = s.fs ∧ t.ready = s.ready ∧ t.samples = s.samples ∧ t.draws = s.draws
      | .render => t.inc = s.inc ∧ t.fs = s.fs ∧ t.ready = s.ready ∧ ∃ w, t.samples = s.samples ++ [w]
      | .reserved => t.idx = s.idx ∧ t.inc = s.inc ∧ t.fs = s.fs ∧ t.ready = s.ready ∧ t.samples = s.samples ∧
          t.draws = s.draws

/-- R183: the lifecycle machine, row by row: the reset event, `INIT` (which sets the increment), `SETF0` (which keeps READY
with an updated increment), `RENDER` (which keeps READY while the phase advances), and the reserved word. -/
def Obligations.LifecycleMachine : Prop :=
  (∀ (s : State) (rest : List PortEvent), s.port = .reset :: rest → ∃ t, step s = .next t ∧ t.ready = false) ∧
    (∀ (fs f0 : Word) (s : State), ∃ t, exec (.init fs f0) s = .next t ∧ t.ready = gt32 fs f32Zero ∧
      (gt32 fs f32Zero = true → t.inc = incOf f0 fs) ∧
      (gt32 fs f32Zero = false → t.faults = s.faults ++ [⟨.cfgFs, s.commands + 1⟩])) ∧
    (∀ (f0 : Word) (s : State), ∃ t, exec (.setf0 f0) s = .next t ∧ t.ready = s.ready ∧
      (s.ready = true → t.inc = incOf f0 s.fs) ∧
      (s.ready = false → t.faults = s.faults ++ [⟨.notReady, s.commands + 1⟩])) ∧
    (∀ s : State, ∃ t, exec .render s = .next t ∧ t.ready = s.ready ∧
      (s.ready = true → t.idx = wrap (add32 s.idx s.inc)) ∧
      (s.ready = false → t.faults = s.faults ++ [⟨.notReady, s.commands + 1⟩])) ∧
    ∀ s : State, ∃ t, exec .reserved s = .next t ∧ t.ready = s.ready ∧
      t.faults = s.faults ++ [⟨.illegalCmd, s.commands + 1⟩]

/-- R150: no command reads FAULTS: whatever record a command starts with, it does the same and appends the same. -/
def Obligations.FaultRecordIsNeverRead : Prop :=
  ∀ (i : Instr) (s : State) (record : List FaultEvent), ∃ (t : State) (new : List FaultEvent),
    exec i s = .next { t with faults := s.faults ++ new } ∧
      exec i { s with faults := record } = .next { t with faults := record ++ new }

/-- R28: `RENDER` does not read FS; `SETF0` reads neither IDX nor the table. -/
def Obligations.CommandsReadOnlyTheirRegisters : Prop :=
  (∀ (s : State) (v : Word), ∃ t : State, exec .render s = .next t ∧ exec .render { s with fs := v } = .next { t with fs := v }) ∧
    ∀ (f0 : Word) (s : State) (v : Word) (table : List RomCell), ∃ t : State, exec (.setf0 f0) s = .next t ∧
      exec (.setf0 f0) { s with idx := v, rom := table } = .next { t with idx := v, rom := table }

/-- The invariant holds after reset (R23, R35, R132, R150; logs 1 and 5 for what reset stores). -/
def Obligations.ResetMeetsInvariant : Prop := State.reset.Inv

/-- R23, R132, R150, R156: every step, from every state that meets the invariant, gives a state that meets it: the table's
canonical form, a sample rate greater than zero once constructed, a phase that is never `-0.0`, a well-formed record. -/
def Obligations.StepKeepsInvariant : Prop := ∀ s t : State, s.Inv → step s = .next t → t.Inv

/-- R58: taking the events at the port one step at a time is performing them one after another, each whole. -/
def Obligations.RunIsComposition : Prop :=
  ∀ (events : List PortEvent) (s : State), s.port = [] →
    core.run events.length { s with port := events } = performEvents events s

/-- R170: a step of one instance leaves every other instance as it was, and does to its own what it would do alone. -/
def Obligations.InstancesAreIndependent : Prop :=
  ∀ (voices : Voices) (k : Nat) (s : State), voices[k]? = some s →
    ∃ (t : State) (after : Voices), step s = .next t ∧ stepVoice voices k = .next after ∧ after[k]? = some t ∧
      ∀ j, j ≠ k → after[j]? = voices[j]?

/-! ## The arithmetic -/

/-- R9, R15: the sum of two finite patterns is the exact sum rounded once, to nearest with ties to even; an exact zero sum
is `+0.0` unless both are `-0.0` (R132). -/
def Obligations.SumRoundsToNearest : Prop :=
  ∀ a b : Word, isFinite a = true → isFinite b = true →
    RoundsTo (value a + value b) (add32 a b) ∧
      (value a + value b = 0 → add32 a b = if signBit a && signBit b then 0x80000000#32 else 0#32)

/-- R9, R15: the difference of two finite patterns, rounded once; an exact zero difference is `+0.0` unless it is
`-0.0` minus `+0.0`. -/
def Obligations.DifferenceRoundsToNearest : Prop :=
  ∀ a b : Word, isFinite a = true → isFinite b = true →
    RoundsTo (value a - value b) (sub32 a b) ∧
      (value a - value b = 0 → sub32 a b = if signBit a && !signBit b then 0x80000000#32 else 0#32)

/-- R9, R15: the product of two finite patterns, rounded once, with the product of the signs. -/
def Obligations.ProductRoundsToNearest : Prop :=
  ∀ a b : Word, isFinite a = true → isFinite b = true →
    RoundsTo (value a * value b) (mul32 a b) ∧ signBit (mul32 a b) = (signBit a ^^ signBit b)

/-- R9, R15: the quotient of two finite patterns with a divisor that is not zero, rounded once, with the product of the signs. -/
def Obligations.QuotientRoundsToNearest : Prop :=
  ∀ a b : Word, isFinite a = true → isFinite b = true → value b ≠ 0 →
    RoundsTo (value a / value b) (div32 a b) ∧ signBit (div32 a b) = (signBit a ^^ signBit b)

/-- R15: a NaN operand gives a NaN, and so do `inf - inf`, `0 * inf`, `0 / 0` and `inf / inf`. An infinity otherwise
absorbs (the model's reading of IEEE 754, log 12). -/
def Obligations.SpecialOperands : Prop :=
  (∀ a b : Word, (isNaN a || isNaN b) = true →
      isNaN (add32 a b) = true ∧ isNaN (sub32 a b) = true ∧ isNaN (mul32 a b) = true ∧ isNaN (div32 a b) = true) ∧
    (∀ s t : Bool, isNaN (div32 (infinity s) (infinity t)) = true ∧ isNaN (div32 (zero s) (zero t)) = true ∧
      isNaN (mul32 (infinity s) (zero t)) = true ∧ isNaN (mul32 (zero s) (infinity t)) = true ∧
      isNaN (sub32 (infinity s) (infinity s)) = true ∧ isNaN (add32 (infinity s) (infinity (!s))) = true) ∧
    ∀ (s : Bool) (a : Word), isFinite a = true →
      add32 (infinity s) a = infinity s ∧ add32 a (infinity s) = infinity s ∧ sub32 (infinity s) a = infinity s ∧
        sub32 a (infinity s) = infinity (!s) ∧ div32 (infinity s) a = infinity (s ^^ signBit a) ∧ div32 a (infinity s) = zero (s ^^ signBit a) ∧
        (value a ≠ 0 → mul32 (infinity s) a = infinity (s ^^ signBit a) ∧ mul32 a (infinity s) = infinity (s ^^ signBit a) ∧
          div32 a (zero s) = infinity (s ^^ signBit a))

/-- R15: the ordered comparisons compare values, are false with a NaN, and put the infinities at the two ends. -/
def Obligations.ComparisonsOrderValues : Prop :=
  (∀ a b : Word, isFinite a = true → isFinite b = true →
      (gt32 a b = true ↔ value b < value a) ∧ (ge32 a b = true ↔ value b ≤ value a)) ∧
    (∀ a b : Word, (isNaN a || isNaN b) = true → gt32 a b = false ∧ ge32 a b = false) ∧
    ∀ a : Word, isFinite a = true →
      gt32 (infinity false) a = true ∧ ge32 (infinity false) a = true ∧ gt32 a (infinity true) = true ∧
        ge32 a (infinity true) = true ∧ gt32 a (infinity false) = false ∧ ge32 a (infinity false) = false ∧
        gt32 (infinity true) a = false ∧ ge32 (infinity true) a = false

/-- R15, R121: `trunc` of a finite pattern is its integer part, toward zero. -/
def Obligations.TruncIsTowardZero : Prop :=
  ∀ a : Word, isFinite a = true →
    (0 ≤ value a → trunc a = ⌊value a⌋) ∧ (value a ≤ 0 → trunc a = ⌈value a⌉)

/-- R101: the product with 2048 is exact below 2^117, the increment is then the real quotient rounded once for every finite
`fs > 0`; from 2^117 on the product overflows and the increment is an infinity. -/
def Obligations.IncrementIsRoundedQuotient : Prop :=
  ∀ f0 fs : Word, isFinite f0 = true →
    (|value f0| < 2 ^ 117 → isFinite (mul32 f32N f0) = true ∧ value (mul32 f32N f0) = 2048 * value f0) ∧
      (isFinite fs = true → 0 < value fs →
        (|value f0| < 2 ^ 117 → RoundsTo (2048 * value f0 / value fs) (incOf f0 fs)) ∧
          (2 ^ 117 ≤ |value f0| → incOf f0 fs = infinity (signBit f0)))

/-- R109: the increments of the table, bit for bit. -/
def Obligations.IncrementTable : Prop :=
  incOf 0x43dc0000#32 0x473b8000#32 = 0x41962fc9#32 ∧ incOf 0x445c0000#32 0x473b8000#32 = 0x42162fc9#32 ∧
    incOf 0x447a0000#32 0x473b8000#32 = 0x422aaaab#32 ∧ incOf 0x447a0000#32 0x472c4400#32 = 0x4239c278#32 ∧
    incOf 0x45bb8000#32 0x473b8000#32 = 0x43800000#32 ∧ incOf 0x463b8000#32 0x473b8000#32 = 0x44000000#32 ∧
    incOf 0x46bb8000#32 0x473b8000#32 = 0x44800000#32 ∧ incOf 0x473b8000#32 0x473b8000#32 = 0x45000000#32 ∧
    incOf 0x478ca000#32 0x473b8000#32 = 0x45400000#32 ∧ incOf 0x00000000#32 0x473b8000#32 = 0x00000000#32 ∧
    incOf 0xc3dc0000#32 0x473b8000#32 = 0xc1962fc9#32 ∧ incOf 0x44ffffff#32 0x45000000#32 = 0x44ffffff#32 ∧
    incOf 0x38800000#32 0x45000000#32 = 0x38800000#32 ∧ incOf 0xbf000000#32 0x45000000#32 = 0xbf000000#32 ∧
    incOf 0x43dc0000#32 0x7f800000#32 = 0x00000000#32 ∧ incOf 0x7f7fffff#32 0x473b8000#32 = 0x7f800000#32

/-- R102, corner cases, for every `fs` that `INIT` accepts. For `fs = +inf` the spec writes "finite f0"; from 2^117 on the
product is an infinity and the quotient a NaN (R100, R101; log 19), so the bound stands as a premise here. -/
def Obligations.IncrementCornerCases : Prop :=
  ∀ fs : Word, gt32 fs f32Zero = true →
    (∀ s : Bool, incOf (zero s) fs = zero s) ∧
      (∀ f0 : Word, isNaN f0 = true → isNaN (incOf f0 fs) = true) ∧
      (isFinite fs = true → ∀ s : Bool, incOf (infinity s) fs = infinity s) ∧
      (isFinite fs = false →
        (∀ f0 : Word, isFinite f0 = true → |value f0| < 2 ^ 117 → incOf f0 fs = zero (signBit f0)) ∧
          ∀ s : Bool, isNaN (incOf (infinity s) fs) = true)

/-- R108, with the premise its proof needs and its text leaves out, that the product with 2048 does not overflow (log 19):
the increment of a frequency below `fs/2` is at most `1024 - 2^-14`, so below N/2. -/
def Obligations.NyquistBound : Prop :=
  ∀ f0 fs : Word, isFinite fs = true → isFinite f0 = true → 2 ^ (-125 : ℤ) ≤ value fs → 0 < value f0 →
    value f0 < value fs / 2 → value f0 < 2 ^ 117 →
    isFinite (incOf f0 fs) = true ∧ 0 ≤ value (incOf f0 fs) ∧ value (incOf f0 fs) ≤ 1024 - 1 / 2 ^ 14

/-- Log 19: R108 as it is written, without that premise, does not hold of R100: `fs = 2^127` and `f0 = 2^117` meet its
conditions and the increment is `+inf`. -/
def Obligations.NyquistBoundNeedsFiniteProduct : Prop :=
  ∃ f0 fs : Word, isFinite fs = true ∧ isFinite f0 = true ∧ 2 ^ (-125 : ℤ) ≤ value fs ∧ 0 < value f0 ∧
    value f0 < value fs / 2 ∧ incOf f0 fs = 0x7f800000#32

/-! ## Sample generation -/

/-- R123: below 2048 and for a NaN nothing is subtracted; from 2048 to 4096 the subtraction is exact; above, 2048 is
subtracted once and rounded; `+inf` stays `+inf`. -/
def Obligations.SingleWrap : Prop :=
  (∀ s : Word, isFinite s = true → value s < 2048 → wrap s = s) ∧
    (∀ s : Word, isNaN s = true → wrap s = s) ∧ (∀ neg : Bool, wrap (infinity neg) = infinity neg) ∧
    (∀ s : Word, isFinite s = true → 2048 ≤ value s → value s ≤ 4096 →
      isFinite (wrap s) = true ∧ value (wrap s) = value s - 2048) ∧
    ∀ s : Word, isFinite s = true → 2048 ≤ value s → wrap s = sub32 s f32N ∧ RoundsTo (value s - 2048) (wrap s)

/-- R124: in READY the pre-wrap sum decides: `RENDER` faults exactly when it is a NaN, or at least 4096, or at most -1;
otherwise it reads entry `trunc(s0)` below 2048 and entry `trunc(s0 - 2048)` from 2048 on. The fault case is also exactly
when the wrapped phase is no number, at most -1 or at least 2048. -/
def Obligations.PreWrapSumDecides : Prop :=
  ∀ s : State, s.ready = true →
    ((isNaN (add32 s.idx s.inc) || ge32 (add32 s.idx s.inc) 0x45800000#32 || ge32 0xbf800000#32 (add32 s.idx s.inc)) = true →
        (isFinite (wrap (add32 s.idx s.inc)) = false ∨ value (wrap (add32 s.idx s.inc)) ≤ -1 ∨
          2048 ≤ value (wrap (add32 s.idx s.inc))) ∧
        ∃ (w : Word) (d : Nat), exec .render s = .next { s with
          idx := wrap (add32 s.idx s.inc), commands := s.commands + 1,
          faults := s.faults ++ [⟨.idxOob, s.commands + 1⟩], samples := s.samples ++ [w], draws := d }) ∧
      ((isNaN (add32 s.idx s.inc) || ge32 (add32 s.idx s.inc) 0x45800000#32 || ge32 0xbf800000#32 (add32 s.idx s.inc)) = false →
        isFinite (wrap (add32 s.idx s.inc)) = true ∧ -1 < value (wrap (add32 s.idx s.inc)) ∧
          value (wrap (add32 s.idx s.inc)) < 2048 ∧
          ∃ k : Fin 2048, exec .render s = .next { s with
            idx := wrap (add32 s.idx s.inc), commands := s.commands + 1, samples := s.samples ++ [s.memRead k] } ∧
            (value (add32 s.idx s.inc) < 2048 → (k.val : Int) = trunc (add32 s.idx s.inc)) ∧
            (2048 ≤ value (add32 s.idx s.inc) → (k.val : Int) = ⌊value (add32 s.idx s.inc) - 2048⌋))

/-- R125: a NaN or infinite IDX or INC makes a `RENDER` fault; an infinite IDX stays while INC is finite or the same
infinity and becomes a NaN when INC is the opposite one; a NaN IDX stays a NaN. -/
def Obligations.NonFinitePhaseFaults : Prop :=
  ∀ s : State, s.ready = true → (isFinite s.idx && isFinite s.inc) = false →
    ∃ t, exec .render s = .next t ∧ t.faults = s.faults ++ [⟨.idxOob, s.commands + 1⟩] ∧
      ((isNaN s.idx || isNaN s.inc) = true → isNaN t.idx = true) ∧
      ∀ neg : Bool, s.idx = infinity neg →
        (isFinite s.inc = true ∨ s.inc = infinity neg → t.idx = infinity neg) ∧
          (s.inc = infinity (!neg) → isNaN t.idx = true)

/-- R125: once IDX holds a NaN, through any commands but an `INIT`, IDX stays a NaN and every `RENDER` adds one fault (as
every reserved word does, R151). -/
def Obligations.NaNPhaseStaysUntilInit : Prop :=
  ∀ (cmds : List Instr) (s : State), s.ready = true → isNaN s.idx = true →
    (∀ i ∈ cmds, i = .render ∨ i = .reserved ∨ ∃ f0, i = .setf0 f0) →
    ∃ t, perform cmds s = .next t ∧ t.ready = true ∧ isNaN t.idx = true ∧
      t.faults.length = s.faults.length + cmds.count .render + cmds.count .reserved

/-- R126, from a phase in `(-1, 2048)` (log 20): with a finite negative increment the accumulator decreases and is not
wrapped; `RENDER` faults when the sum is at most -1, and otherwise reads an index no greater than before. -/
def Obligations.NegativeIncrementRunsBackwards : Prop :=
  ∀ s : State, s.ready = true → isFinite s.idx = true → -1 < value s.idx → value s.idx < 2048 →
    isFinite s.inc = true → value s.inc < 0 →
    ∃ t, exec .render s = .next t ∧ t.idx = add32 s.idx s.inc ∧ isFinite t.idx = true ∧ value t.idx ≤ value s.idx ∧
      (value t.idx ≤ -1 → t.faults = s.faults ++ [⟨.idxOob, s.commands + 1⟩]) ∧
      (-1 < value t.idx → t.faults = s.faults ∧
        ∃ k : Fin 2048, (k.val : Int) ≤ trunc s.idx ∧ t.samples = s.samples ++ [s.memRead k])

/-- R127: with IDX and INC in `[0, 2048)`, `RENDER` raises no fault and leaves IDX in `[0, 2048)`. -/
def Obligations.RangeInvariant : Prop :=
  ∀ s : State, s.ready = true → InPhase s.idx → InPhase s.inc →
    ∃ (p : Word) (k : Fin 2048), InPhase p ∧ exec .render s = .next { s with
      idx := p, commands := s.commands + 1, samples := s.samples ++ [s.memRead k] }

/-- R59, R106, R127: two host contexts, one issuing `RENDER`s and one issuing `SETF0`s whose increments lie in `[0, 2048)`:
every interleaving of their whole commands, from a phase and an increment in range, ends in range with no fault recorded. -/
def Obligations.InterleavedHostsStayInRange : Prop :=
  ∀ (renders settings cmds : List Instr) (s : State), s.ready = true → InPhase s.idx → InPhase s.inc →
    (∀ i ∈ renders, i = .render) → (∀ i ∈ settings, ∃ f0, i = .setf0 f0 ∧ InPhase (incOf f0 s.fs)) →
    Interleaves renders settings cmds →
    ∃ t, perform cmds s = .next t ∧ t.faults = s.faults ∧ InPhase t.idx ∧
      t.samples.length = s.samples.length + renders.length

/-- R102, R108, R127, R182: from any state, an `INIT` at a sub-Nyquist frequency followed by any `RENDER`s and sub-Nyquist
`SETF0`s records no fault (the product bound of log 19 stands as a premise). -/
def Obligations.SubNyquistSessionNeverFaults : Prop :=
  ∀ (fs f0 : Word) (cmds : List Instr) (s : State), isFinite fs = true → 2 ^ (-125 : ℤ) ≤ value fs →
    (∀ f, f = f0 ∨ Instr.setf0 f ∈ cmds →
      isFinite f = true ∧ 0 < value f ∧ value f < value fs / 2 ∧ value f < 2 ^ 117) →
    (∀ i ∈ cmds, i = .render ∨ ∃ f, i = .setf0 f) →
    ∃ t, perform (.init fs f0 :: cmds) s = .next t ∧ t.faults = s.faults ∧ t.ready = true ∧ InPhase t.idx

/-- R128: a sum whose exact value lies below 2048 by at most half a grid step, 2^-14, rounds to 2048.0, wraps to `+0.0`
and reads entry 0; with the rule's example. -/
def Obligations.SumRoundsOntoTableLength : Prop :=
  (∀ s : State, s.ready = true → isFinite s.idx = true → isFinite s.inc = true →
      2048 - 1 / 2 ^ 14 ≤ value s.idx + value s.inc → value s.idx + value s.inc < 2048 →
      add32 s.idx s.inc = 0x45000000#32 ∧ exec .render s = .next { s with
        idx := 0#32, commands := s.commands + 1, samples := s.samples ++ [s.memRead 0] }) ∧
    add32 0x44ffffff#32 0x38800000#32 = 0x45000000#32

/-- R129: with INC exactly 2048 and IDX in `[0, 2048)`, the new IDX is the old one rounded onto the 2^-12 grid, ties to
even; but from `0x44ffffff` the sum rounds to 4096, wraps to 2048 and faults. From `+0.0` IDX stays and entry 0 is read. -/
def Obligations.IncrementExactlyTableLength : Prop :=
  ∀ s : State, s.ready = true → s.inc = 0x45000000#32 → InPhase s.idx →
    (s.idx = 0x44ffffff#32 → ∃ t, exec .render s = .next t ∧ t.idx = 0x45000000#32 ∧
      t.faults = s.faults ++ [⟨.idxOob, s.commands + 1⟩]) ∧
    (s.idx ≠ 0x44ffffff#32 → ∃ t, ∃ n : ℤ, exec .render s = .next t ∧ t.faults = s.faults ∧ InPhase t.idx ∧
      value t.idx = n / 2 ^ 12 ∧ |value t.idx - value s.idx| ≤ 1 / 2 ^ 13 ∧
      (|value t.idx - value s.idx| = 1 / 2 ^ 13 → n % 2 = 0)) ∧
    (s.idx = 0#32 → ∃ t, exec .render s = .next t ∧ t.idx = 0#32 ∧ t.samples = s.samples ++ [s.memRead 0])

/-- R130: with a finite INC above 2048 and a finite IDX of at least 0, `RENDER` faults exactly when the sum is at least
4096, so always when INC is at least 4096. -/
def Obligations.IncrementAboveTableLength : Prop :=
  ∀ s : State, s.ready = true → isFinite s.idx = true → 0 ≤ value s.idx → isFinite s.inc = true → 2048 < value s.inc →
    ∃ t, exec .render s = .next t ∧
      (ge32 (add32 s.idx s.inc) 0x45800000#32 = true → t.faults = s.faults ++ [⟨.idxOob, s.commands + 1⟩]) ∧
      (ge32 (add32 s.idx s.inc) 0x45800000#32 = false → t.faults = s.faults) ∧
      (4096 ≤ value s.inc → ge32 (add32 s.idx s.inc) 0x45800000#32 = true)

/-- R130: with INC between 2048 and 4096 a fault comes within finitely many `RENDER`s: at most 2^23 + 1 of them. -/
def Obligations.IncrementAboveTableLengthFaultsInTime : Prop :=
  ∀ s : State, s.ready = true → isFinite s.idx = true → 0 ≤ value s.idx → isFinite s.inc = true →
    2048 < value s.inc → value s.inc < 4096 →
    ∃ (n : Nat) (t : State), n ≤ 2 ^ 23 + 1 ∧ perform (List.replicate n .render) s = .next t ∧ t.faults ≠ s.faults

/-- R131, for a phase in `[0, 2048)` that is not `-0.0` (log 20): with a zero increment of either sign every `RENDER` of a
run leaves IDX unchanged and returns the same entry. -/
def Obligations.ZeroIncrementRepeatsEntry : Prop :=
  ∀ s : State, s.ready = true → InPhase s.idx → s.idx ≠ 0x80000000#32 → (∃ neg, s.inc = zero neg) →
    ∃ k : Fin 2048, (k.val : Int) = trunc s.idx ∧ ∀ n : Nat,
      perform (List.replicate n .render) s = .next { s with
        commands := s.commands + n, samples := s.samples ++ List.replicate n (s.memRead k) }

/-- R133: a positive increment below half the grid spacing at a normal IDX, or exactly half when the significand is even,
does not move the accumulator. The spacing at exponent field `e` is 2^(e-150). -/
def Obligations.SmallIncrementStagnates : Prop :=
  ∀ s : State, s.ready = true → InPhase s.idx → 1 ≤ exponentField s.idx → isFinite s.inc = true → 0 < value s.inc →
    (value s.inc < 2 ^ ((exponentField s.idx : ℤ) - 151) ∨
      value s.inc = 2 ^ ((exponentField s.idx : ℤ) - 151) ∧ s.idx.getLsbD 0 = false) →
    add32 s.idx s.inc = s.idx ∧ ∃ t, exec .render s = .next t ∧ t.idx = s.idx ∧ t.faults = s.faults

/-- R134: with a table that has P2 of R31, a `RENDER` that does not fault returns an entry of it, finite and in [-1, 1]. -/
def Obligations.SamplesLieInUnitRange : Prop :=
  ∀ s t : State, InUnitRange s.memRead → exec .render s = .next t → t.faults = s.faults →
    ∃ k : Fin 2048, t.samples = s.samples ++ [s.memRead k] ∧ isFinite (s.memRead k) = true ∧
      -1 ≤ value (s.memRead k) ∧ value (s.memRead k) ≤ 1

/-- R134, R150, R188: of a run that ends with no fault recorded, every sample observed since its start is an entry of the
table, one for each `RENDER`, in order; with P2 of R31 all of them lie in [-1, 1]. -/
def Obligations.SafeRunSamplesAreTableEntries : Prop :=
  ∀ (cmds : List Instr) (s t : State), perform cmds s = .next t → Safe t →
    ∃ ks : List (Fin 2048), ks.length = cmds.count .render ∧ t.observe.samples = s.observe.samples ++ ks.map s.memRead ∧
      (InUnitRange s.memRead → ∀ k ∈ ks, -1 ≤ value (s.memRead k) ∧ value (s.memRead k) ≤ 1)

/-- R107, R184: `SETF0` leaves IDX, and the `RENDER` after it adds the new increment to the IDX that was reached. -/
def Obligations.PhaseIsContinuous : Prop :=
  ∀ (f0 : Word) (s : State), s.ready = true →
    ∃ t u, exec (.setf0 f0) s = .next t ∧ t.idx = s.idx ∧ exec .render t = .next u ∧
      u.idx = wrap (add32 s.idx (incOf f0 s.fs))

/-- R54: a second `SETF0`, or a second `INIT`, with the same operands in force leaves the same registers, READY and table;
only the command's ordinal differs (and, where it faults, the record). For a NaN increment this rests on log 4. -/
def Obligations.ConfigurationIsIdempotent : Prop :=
  (∀ (f0 : Word) (s : State), s.ready = true →
      ∃ t : State, exec (.setf0 f0) s = .next t ∧ exec (.setf0 f0) t = .next { t with commands := t.commands + 1 }) ∧
    ∀ (fs f0 : Word) (s : State), gt32 fs f32Zero = true →
      ∃ t : State, exec (.init fs f0) s = .next t ∧ exec (.init fs f0) t = .next { t with commands := t.commands + 1 }

/-! ## The reference table and the syntax -/

/-- R31, R32: the reference table has property P1: each entry is within 1e-5 of the sine. -/
def Obligations.ReferenceTableIsNearSine : Prop := NearSine sineRomRef

/-- R31, R32: the reference table has P2 and P3, its named entries, and the symmetries of the sine. -/
def Obligations.ReferenceTableShape : Prop :=
  InUnitRange sineRomRef ∧ StartsAtZero sineRomRef ∧ sineRomRef 512 = 0x3f800000#32 ∧ sineRomRef 1024 = 0#32 ∧
    sineRomRef 1536 = 0xbf800000#32 ∧ sineRomRef 18 = 0x3d621469#32 ∧ sineRomRef 2047 = 0xbb490fc6#32 ∧
    ∀ k : Fin 2048, 0 < k.val → k.val < 1024 →
      value (sineRomRef (1024 - k)) = value (sineRomRef k) ∧ value (sineRomRef (1024 + k)) = -value (sineRomRef k)

/-- R70, R79: the listing of any command word, read again, is the command it decodes to. The line the reserved word is
listed as, and its being read again, are of log 18. -/
def Obligations.ListingReadsBack : Prop :=
  ∀ cw : CommandWord, parseLine (listing cw) = some (.command (decode cw))
end

