-- ==== Sys2Proof/Laws/Decode.lean ====
section
/-! SUPPORT. The fields of a command word built from its fields, and a word rebuilt from its fields; the byte order of a
host binding loses nothing (R51). -/

namespace Sys2Proof

theorem commandWord_getLsbD (op : BitVec 2) (a b : Word) (i : Nat) :
    (commandWord op a b).getLsbD i =
      if i < 32 then b.getLsbD i else if i < 64 then a.getLsbD (i - 32) else op.getLsbD (i - 64) := by
  unfold commandWord
  show ((op ++ (a ++ b) : BitVec (2 + (32 + 32)))).getLsbD i = _
  rw [BitVec.getLsbD_append, BitVec.getLsbD_append]
  by_cases h1 : i < 32
  · rw [if_pos (by omega), if_pos h1, if_pos h1]
  · by_cases h2 : i < 64
    · rw [if_pos (by omega), if_neg h1, if_neg h1, if_pos h2]
    · rw [if_neg (by omega), if_neg h1, if_neg h2]

@[simp] theorem opField_commandWord (op : BitVec 2) (a b : Word) : opField (commandWord op a b) = op := by
  apply BitVec.eq_of_getLsbD_eq
  intro i hi
  rw [opField, BitVec.getLsbD_extractLsb', commandWord_getLsbD, if_neg (by omega), if_neg (by omega)]
  simp [hi]

@[simp] theorem aField_commandWord (op : BitVec 2) (a b : Word) : aField (commandWord op a b) = a := by
  apply BitVec.eq_of_getLsbD_eq
  intro i hi
  rw [aField, BitVec.getLsbD_extractLsb', commandWord_getLsbD, if_neg (by omega), if_pos (by omega)]
  simp [hi]

@[simp] theorem bField_commandWord (op : BitVec 2) (a b : Word) : bField (commandWord op a b) = b := by
  apply BitVec.eq_of_getLsbD_eq
  intro i hi
  rw [bField, BitVec.getLsbD_extractLsb', commandWord_getLsbD, if_pos (by omega)]
  simp [hi]

namespace Machine

/-- Splitting a word into bytes and joining them gives the word back, in either order (R51). -/
theorem joinWord_splitWord (order : Config.ByteOrder) (w : Word) : joinWord order (splitWord order w) = some w := by
  have h : fourBytes (w.extractLsb' 24 8) (w.extractLsb' 16 8) (w.extractLsb' 8 8) (w.extractLsb' 0 8) = w := by
    apply BitVec.eq_of_getLsbD_eq
    intro i hi
    unfold fourBytes
    show ((_ ++ (_ ++ (_ ++ _)) : BitVec (8 + (8 + (8 + 8))))).getLsbD i = _
    simp only [BitVec.getLsbD_append, BitVec.getLsbD_extractLsb']
    by_cases h1 : i < 8
    · rw [if_pos (by omega), if_pos (by omega), if_pos h1]
      simp [h1]
    · by_cases h2 : i < 16
      · rw [if_pos (by omega), if_pos (by omega), if_neg h1, show 8 + (i - 8) = i by omega]
        simp
        omega
      · by_cases h3 : i < 24
        · rw [if_pos (by omega), if_neg (by omega), show 16 + (i - (8 + 8)) = i by omega]
          simp
          omega
        · rw [if_neg (by omega), show 24 + (i - (8 + (8 + 8))) = i by omega]
          simp
          omega
  cases order <;> simp [splitWord, joinWord, h]

end Machine

end Sys2Proof
end

