-- ==== Sys2Proof/Laws/Float.lean ====
section
/-! SUPPORT. Laws of the binary32 operations: what a pattern unpacks to, and that rounding is exact on patterns, monotone
and within bounds. -/

namespace Sys2Proof.Machine

/-! ## Rounding a quotient -/

/-- The quotient lies within half a unit of the exact value, and a tie gives an even result. -/
theorem roundDiv_spec (n d : Nat) (hd : 0 < d) :
    2 * n ≤ (2 * roundDiv n d + 1) * d ∧ 2 * roundDiv n d * d ≤ 2 * n + d ∧
      (2 * n = (2 * roundDiv n d + 1) * d → roundDiv n d % 2 = 0) ∧
      (2 * roundDiv n d * d = 2 * n + d → roundDiv n d % 2 = 0) := by
  have hdm : d * (n / d) + n % d = n := Nat.div_add_mod n d
  have hlt : n % d < d := Nat.mod_lt n hd
  unfold roundDiv
  generalize n / d = q at *
  generalize n % d = r at *
  subst hdm
  split
  · refine ⟨by nlinarith, by nlinarith, fun h => ?_, fun h => ?_⟩ <;> exfalso <;> nlinarith
  · split
    · refine ⟨by nlinarith, by nlinarith, fun h => ?_, fun h => ?_⟩ <;> exfalso <;> nlinarith
    · have hr : 2 * r = d := by omega
      rcases Nat.mod_two_eq_zero_or_one q with h2 | h2
      · rw [h2, Nat.add_zero]
        exact ⟨by nlinarith, by nlinarith, fun _ => h2, fun _ => h2⟩
      · rw [h2]
        exact ⟨by nlinarith, by nlinarith, fun _ => by omega, fun _ => by omega⟩

/-- A greater quotient rounds no lower. -/
theorem roundDiv_mono {n d n' d' : Nat} (hd : 0 < d) (hd' : 0 < d') (h : n * d' ≤ n' * d) :
    roundDiv n d ≤ roundDiv n' d' := by
  obtain ⟨-, hu, -, ht⟩ := roundDiv_spec n d hd
  obtain ⟨hl', -, ht', -⟩ := roundDiv_spec n' d' hd'
  generalize roundDiv n d = q at *
  generalize roundDiv n' d' = q' at *
  by_contra hlt
  have hq : q' + 1 ≤ q := by omega
  have hdd : 0 < d * d' := Nat.mul_pos hd hd'
  have a : 2 * q * (d * d') ≤ 2 * n * d' + d * d' := by nlinarith
  have b : 2 * n' * d ≤ (2 * q' + 1) * (d * d') := by nlinarith
  have c : 2 * n * d' ≤ 2 * n' * d := by nlinarith
  have hqq : q = q' + 1 := by
    by_contra hne
    have : q' + 2 ≤ q := by omega
    nlinarith
  subst hqq
  have e1 : 2 * n * d' = (2 * q' + 1) * (d * d') := by nlinarith
  have e2 : 2 * n' * d = (2 * q' + 1) * (d * d') := by nlinarith
  have f1 : 2 * (q' + 1) * d = 2 * n + d := by
    have : (2 * (q' + 1) * d) * d' = (2 * n + d) * d' := by nlinarith
    exact Nat.eq_of_mul_eq_mul_right hd' this
  have f2 : 2 * n' = (2 * q' + 1) * d' := by
    have : (2 * n') * d = ((2 * q' + 1) * d') * d := by nlinarith
    exact Nat.eq_of_mul_eq_mul_right hd this
  have := ht f1
  have := ht' f2
  omega

/-- A whole quotient rounds to itself. -/
theorem roundDiv_mul (k d : Nat) (hd : 0 < d) : roundDiv (k * d) d = k := by
  simp [roundDiv, Nat.mul_mod_left, Nat.mul_div_cancel k hd, hd]

/-- A quotient at least `k` rounds to at least `k`. -/
theorem le_roundDiv {n d k : Nat} (hd : 0 < d) (h : k * d ≤ n) : k ≤ roundDiv n d := by
  have := roundDiv_mono (n := k) (d := 1) (n' := n) Nat.one_pos hd (by omega)
  simpa [roundDiv, Nat.mod_one] using this

/-- A quotient at most `k` rounds to at most `k`. -/
theorem roundDiv_le {n d k : Nat} (hd : 0 < d) (h : n ≤ k * d) : roundDiv n d ≤ k := by
  have := roundDiv_mono (n := n) (d := d) (n' := k) hd Nat.one_pos (by omega)
  simpa [roundDiv, Nat.mod_one] using this

/-! ## Rounding to a pattern -/

/-- The magnitude, in units of 2^-149, that the 31 low bits of a finite pattern stand for. -/
def magOf (bits : Nat) : Nat := magUnits (bits / 2 ^ 23) (bits % 2 ^ 23)

theorem excessBits_spec (m : Nat) : m < 2 ^ (excessBits m + 24) ∧ (excessBits m ≠ 0 → 2 ^ (excessBits m + 23) ≤ m) := by
  unfold excessBits
  have hlt : m < 2 ^ (m.log2 + 1) := Nat.lt_log2_self
  refine ⟨lt_of_lt_of_le hlt (Nat.pow_le_pow_right (by omega) (by omega)), fun h => ?_⟩
  have hm : m ≠ 0 := by
    rintro rfl
    simp at h
  rw [show m.log2 - 23 + 23 = m.log2 by omega]
  exact Nat.log2_self_le hm

/-- Only one number of excess bits fits a magnitude that fills its 24 bits. -/
theorem excessBits_eq {m e : Nat} (h1 : m < 2 ^ (e + 24)) (h2 : 2 ^ (e + 23) ≤ m) : excessBits m = e := by
  obtain ⟨a, b⟩ := excessBits_spec m
  have h3 : e + 23 < excessBits m + 24 := (Nat.pow_lt_pow_iff_right (a := 2) (by omega)).1 (lt_of_le_of_lt h2 a)
  by_contra hne
  have h4 := b (by omega)
  have h5 : excessBits m + 23 < e + 24 := (Nat.pow_lt_pow_iff_right (a := 2) (by omega)).1 (lt_of_le_of_lt h4 h1)
  omega

/-- A magnitude of at most 24 bits has no excess. -/
theorem excessBits_eq_zero {m : Nat} (h : m < 2 ^ 24) : excessBits m = 0 := by
  by_contra hne
  have h4 := (excessBits_spec m).2 hne
  have : 2 ^ 24 ≤ 2 ^ (excessBits m + 23) := Nat.pow_le_pow_right (by omega) (by omega)
  omega

/-- The significand a magnitude is rounded to has at most 24 bits (or is 2^24), and at least 24 when there are excess bits. -/
theorem roundDiv_excess (n d : Nat) (hd : 0 < d) :
    roundDiv n (d * 2 ^ excessBits (n / d)) ≤ 2 ^ 24 ∧
      (excessBits (n / d) ≠ 0 → 2 ^ 23 ≤ roundDiv n (d * 2 ^ excessBits (n / d))) := by
  obtain ⟨a, b⟩ := excessBits_spec (n / d)
  have hp : 0 < 2 ^ excessBits (n / d) := Nat.two_pow_pos _
  refine ⟨roundDiv_le (Nat.mul_pos hd hp) ?_, fun h => le_roundDiv (Nat.mul_pos hd hp) ?_⟩
  · have h1 : n < 2 ^ (excessBits (n / d) + 24) * d := (Nat.div_lt_iff_lt_mul hd).1 a
    calc n ≤ 2 ^ (excessBits (n / d) + 24) * d := h1.le
      _ = 2 ^ 24 * (d * 2 ^ excessBits (n / d)) := by rw [Nat.pow_add]; ring
  · have h1 : 2 ^ (excessBits (n / d) + 23) * d ≤ n := (Nat.le_div_iff_mul_le hd).1 (b h)
    calc 2 ^ 23 * (d * 2 ^ excessBits (n / d)) = 2 ^ (excessBits (n / d) + 23) * d := by rw [Nat.pow_add]; ring
      _ ≤ n := h1

theorem roundBits_le (n d : Nat) : roundBits n d ≤ infBits := Nat.min_le_right _ _

/-- Rounding to a pattern is monotone in the exact value. -/
theorem roundBits_mono {n d n' d' : Nat} (hd : 0 < d) (hd' : 0 < d') (h : n * d' ≤ n' * d) :
    roundBits n d ≤ roundBits n' d' := by
  unfold roundBits
  refine min_le_min_right _ ?_
  have hfl : n / d ≤ n' / d' := by
    rw [Nat.le_div_iff_mul_le hd']
    have : n / d * d ≤ n := Nat.div_mul_le_self n d
    have h2 : n / d * d' * d ≤ n' * d := by nlinarith
    exact Nat.le_of_mul_le_mul_right h2 hd
  have hex : excessBits (n / d) ≤ excessBits (n' / d') := by
    by_contra hlt
    have h4 := (excessBits_spec (n / d)).2 (by omega)
    have h5 := (excessBits_spec (n' / d')).1
    have : 2 ^ (excessBits (n' / d') + 24) ≤ 2 ^ (excessBits (n / d) + 23) := Nat.pow_le_pow_right (by omega) (by omega)
    omega
  rcases Nat.eq_or_lt_of_le hex with he | he
  · rw [he]
    have hp : 0 < 2 ^ excessBits (n' / d') := Nat.two_pow_pos _
    refine Nat.add_le_add_left (roundDiv_mono (Nat.mul_pos hd hp) (Nat.mul_pos hd' hp) ?_) _
    calc n * (d' * 2 ^ excessBits (n' / d')) = n * d' * 2 ^ excessBits (n' / d') := by ring
      _ ≤ n' * d * 2 ^ excessBits (n' / d') := Nat.mul_le_mul_right _ h
      _ = n' * (d * 2 ^ excessBits (n' / d')) := by ring
  · have h1 := (roundDiv_excess n d hd).1
    have h2 := (roundDiv_excess n' d' hd').2 (by omega)
    generalize roundDiv n (d * 2 ^ excessBits (n / d)) = x at *
    generalize roundDiv n' (d' * 2 ^ excessBits (n' / d')) = y at *
    omega

/-- A magnitude that a finite pattern holds rounds to that pattern. -/
theorem roundBits_exact (bits d : Nat) (hd : 0 < d) (hb : bits < infBits) : roundBits (magOf bits * d) d = bits := by
  have hE := Nat.div_add_mod bits (2 ^ 23)
  have hF : bits % 2 ^ 23 < 2 ^ 23 := Nat.mod_lt _ (by omega)
  unfold roundBits magOf magUnits
  rw [Nat.mul_div_cancel _ hd]
  generalize bits / 2 ^ 23 = E at *
  generalize bits % 2 ^ 23 = F at *
  have key : ∀ m e : Nat, excessBits (m * 2 ^ e) = e → e * 2 ^ 23 + m = bits →
      min (excessBits (m * 2 ^ e) * 2 ^ 23 + roundDiv (m * 2 ^ e * d) (d * 2 ^ excessBits (m * 2 ^ e))) infBits = bits := by
    intro m e h1 h2
    rw [h1, show m * 2 ^ e * d = m * (d * 2 ^ e) by ring, roundDiv_mul _ _ (Nat.mul_pos hd (Nat.two_pow_pos e)), h2]
    omega
  by_cases h0 : E = 0
  · subst h0
    have := key F 0 (by rw [Nat.pow_zero, Nat.mul_one]; exact excessBits_eq_zero (by omega)) (by omega)
    simpa using this
  · rw [if_neg h0]
    obtain ⟨e, rfl⟩ : ∃ e, E = e + 1 := ⟨E - 1, by omega⟩
    refine key (2 ^ 23 + F) e (excessBits_eq ?_ ?_) (by omega)
    · have hp : 0 < 2 ^ e := Nat.two_pow_pos e
      calc (2 ^ 23 + F) * 2 ^ e < 2 ^ 24 * 2 ^ e := Nat.mul_lt_mul_of_pos_right (by omega) hp
        _ = 2 ^ (e + 24) := by rw [← Nat.pow_add, Nat.add_comm]
    · calc 2 ^ (e + 23) = 2 ^ 23 * 2 ^ e := by rw [← Nat.pow_add, Nat.add_comm]
        _ ≤ (2 ^ 23 + F) * 2 ^ e := Nat.mul_le_mul_right _ (by omega)

/-- An exact value at least a pattern's magnitude rounds to at least that pattern. -/
theorem le_roundBits {n d bits : Nat} (hd : 0 < d) (hb : bits < infBits) (h : magOf bits * d ≤ n) : bits ≤ roundBits n d := by
  rw [← roundBits_exact bits d hd hb]
  exact roundBits_mono hd hd (Nat.mul_le_mul_right d h)

/-- An exact value at most a pattern's magnitude rounds to at most that pattern. -/
theorem roundBits_le_of_le {n d bits : Nat} (hd : 0 < d) (hb : bits < infBits) (h : n ≤ magOf bits * d) : roundBits n d ≤ bits := by
  rw [← roundBits_exact bits d hd hb]
  exact roundBits_mono hd hd (Nat.mul_le_mul_right d h)

/-- A greater finite pattern holds a greater magnitude. -/
theorem magOf_lt {a b : Nat} (hb : b < infBits) (h : a < b) : magOf a < magOf b := by
  by_contra hle
  have h1 := roundBits_mono (n := magOf b * 1) (d := 1) (n' := magOf a * 1) Nat.one_pos Nat.one_pos (by omega)
  rw [roundBits_exact b 1 Nat.one_pos hb, roundBits_exact a 1 Nat.one_pos (by omega)] at h1
  omega

/-- A finite pattern at least as great holds at least as great a magnitude. -/
theorem magOf_le {a b : Nat} (hb : b < infBits) (h : a ≤ b) : magOf a ≤ magOf b := by
  rcases Nat.eq_or_lt_of_le h with rfl | h
  · exact le_rfl
  · exact (magOf_lt hb h).le

/-! ## What a pattern unpacks to -/

theorem exponentField_eq (w : Word) : exponentField w = w.toNat / 2 ^ 23 % 2 ^ 8 := by
  simp [exponentField, BitVec.extractLsb'_toNat, Nat.shiftRight_eq_div_pow]

theorem fractionField_eq (w : Word) : fractionField w = w.toNat % 2 ^ 23 := by
  simp [fractionField, BitVec.extractLsb'_toNat]

theorem signBit_eq (w : Word) : signBit w = decide (2 ^ 31 ≤ w.toNat) := BitVec.msb_eq_decide w

/-- The 31 bits below the sign of a pattern. -/
def lowBits (w : Word) : Nat := w.toNat % 2 ^ 31

theorem lowBits_lt (w : Word) : lowBits w < 2 ^ 31 := Nat.mod_lt _ (by omega)

/-- A pattern is its sign and the 31 bits below it. -/
theorem withSign_lowBits (w : Word) : withSign (signBit w) (lowBits w) = w := by
  apply BitVec.eq_of_toNat_eq
  have := w.isLt
  simp only [withSign, signBit_eq, lowBits, decide_eq_true_eq, BitVec.toNat_ofNat]
  split <;> omega

theorem withSign_toNat (neg : Bool) {bits : Nat} (hb : bits < 2 ^ 31) :
    (withSign neg bits).toNat = (if neg then 2 ^ 31 else 0) + bits := by
  cases neg <;> simp [withSign] <;> omega

theorem signBit_withSign (neg : Bool) {bits : Nat} (hb : bits < 2 ^ 31) : signBit (withSign neg bits) = neg := by
  rw [signBit_eq, withSign_toNat neg hb]
  cases neg
  · simpa using hb
  · simp

theorem lowBits_withSign (neg : Bool) {bits : Nat} (hb : bits < 2 ^ 31) : lowBits (withSign neg bits) = bits := by
  rw [lowBits, withSign_toNat neg hb]
  cases neg <;> simp <;> omega

/-- The three kinds of pattern, by the 31 bits below the sign. -/
theorem unpack_eq (w : Word) :
    unpack w = if lowBits w < infBits then .fin (signBit w) (magOf (lowBits w))
      else if lowBits w = infBits then .inf (signBit w) else .nan := by
  have he : exponentField w = lowBits w / 2 ^ 23 := by
    rw [exponentField_eq, lowBits]
    omega
  have hf : fractionField w = lowBits w % 2 ^ 23 := by
    rw [fractionField_eq, lowBits]
    omega
  have hl := lowBits_lt w
  unfold unpack magOf infBits
  rw [he, hf]
  generalize lowBits w = b at *
  by_cases h1 : b < 0x7f800000
  · rw [if_neg (by omega), if_pos h1]
  · rw [if_pos (by omega), if_neg h1]
    by_cases h2 : b = 0x7f800000
    · rw [if_pos h2, if_pos (by omega)]
    · rw [if_neg h2, if_neg (by omega)]

theorem unpack_withSign (neg : Bool) {bits : Nat} (hb : bits < infBits) :
    unpack (withSign neg bits) = .fin neg (magOf bits) := by
  have h31 : bits < 2 ^ 31 := by
    unfold infBits at hb
    omega
  rw [unpack_eq, lowBits_withSign neg h31, signBit_withSign neg h31, if_pos hb]

theorem unpack_infinity (neg : Bool) : unpack (infinity neg) = .inf neg := by
  cases neg <;> decide

theorem unpack_zero (neg : Bool) : unpack (zero neg) = .fin neg 0 := by
  cases neg <;> decide

/-- What a rounded result unpacks to: a finite number, or an infinity on overflow. -/
theorem unpack_roundTo (neg : Bool) (n d : Nat) :
    unpack (roundTo neg n d) = if roundBits n d = infBits then .inf neg else .fin neg (magOf (roundBits n d)) := by
  unfold roundTo
  split
  · rename_i h
    rw [h]
    exact unpack_infinity neg
  · rename_i h
    have := roundBits_le n d
    exact unpack_withSign neg (by omega)

/-- A NaN result is a NaN, whatever the free pattern (D1). -/
theorem unpack_toNaN (raw : Word) : unpack (toNaN raw) = .nan := by
  unfold toNaN
  split
  · rename_i h
    have hexp : exponentField (raw ||| 0x7fc00000#32) = 255 := by
      unfold exponentField
      rw [show (raw ||| 0x7fc00000#32).extractLsb' 23 8 = 255#8 by
        rw [BitVec.extractLsb'_or]
        show _ ||| 255#8 = 255#8
        exact BitVec.or_allOnes]
      rfl
    have hfr : fractionField (raw ||| 0x7fc00000#32) ≠ 0 := by
      unfold fractionField
      intro h0
      have hz : (raw ||| 0x7fc00000#32).extractLsb' 0 23 = 0#23 := BitVec.eq_of_toNat_eq h0
      have hb := congrArg (fun v => BitVec.getLsbD v 22) hz
      simp at hb
    rw [unpack, if_pos hexp, if_neg hfr]
  · rename_i h
    have hexp : exponentField (raw ||| 0x7f800000#32) = 255 := by
      unfold exponentField
      rw [show (raw ||| 0x7f800000#32).extractLsb' 23 8 = 255#8 by
        rw [BitVec.extractLsb'_or]
        show _ ||| 255#8 = 255#8
        exact BitVec.or_allOnes]
      rfl
    have hfr : fractionField (raw ||| 0x7f800000#32) = fractionField raw := by
      unfold fractionField
      rw [BitVec.extractLsb'_or]
      show (_ ||| 0#23).toNat = _
      rw [BitVec.or_zero]
    rw [unpack, if_pos hexp, hfr, if_neg h]

theorem unpack_nanResult (op : Config.FpOp) (a b : Word) : unpack (nanResult op a b) = .nan := unpack_toNaN _

/-- Every NaN can be the result: `toNaN` leaves a NaN as it is. -/
theorem toNaN_of_nan {w : Word} (h : unpack w = .nan) : toNaN w = w := by
  have hf : exponentField w = 255 ∧ fractionField w ≠ 0 := by
    unfold unpack at h
    split at h
    · split at h
      · cases h
      · exact ⟨‹_›, ‹_›⟩
    · cases h
  rw [toNaN, if_neg hf.2]
  apply BitVec.eq_of_getLsbD_eq
  intro i hi
  have he : w.extractLsb' 23 8 = 255#8 := BitVec.eq_of_toNat_eq (by simpa [exponentField] using hf.1)
  by_cases hr : 23 ≤ i ∧ i < 31
  · have hg := congrArg (fun v => BitVec.getLsbD v (i - 23)) he
    simp only [BitVec.getLsbD_extractLsb', show 23 + (i - 23) = i by omega, show i - 23 < 8 by omega] at hg
    have : ∀ j < 8, BitVec.getLsbD 255#8 j = true := by decide
    rw [this _ (by omega)] at hg
    simp at hg
    simp [hg]
  · have : BitVec.getLsbD 0x7f800000#32 i = false := by
      have : ∀ j < 32, ¬(23 ≤ j ∧ j < 31) → BitVec.getLsbD 0x7f800000#32 j = false := by decide
      exact this i hi hr
    rw [BitVec.getLsbD_or, this, Bool.or_false]

/-! ## The operations on finite patterns -/

theorem isFinite_iff (w : Word) : isFinite w = true ↔ lowBits w < infBits := by
  unfold isFinite
  rw [unpack_eq]
  by_cases h1 : lowBits w < infBits
  · simp [h1]
  · by_cases h2 : lowBits w = infBits <;> simp [h1, h2]

theorem isNaN_iff (w : Word) : isNaN w = true ↔ infBits < lowBits w := by
  unfold isNaN
  rw [unpack_eq]
  by_cases h1 : lowBits w < infBits
  · simp [h1, Nat.le_of_lt h1]
  · by_cases h2 : lowBits w = infBits
    · simp [h2]
    · simp [h1, h2]
      omega

/-- A finite pattern unpacks to its sign and its magnitude. -/
theorem unpack_of_finite {w : Word} (h : isFinite w = true) : unpack w = .fin (signBit w) (magOf (lowBits w)) := by
  rw [unpack_eq, if_pos ((isFinite_iff w).1 h)]

theorem isFinite_of_unpack {w : Word} {s : Bool} {m : Nat} (h : unpack w = .fin s m) : isFinite w = true := by
  rw [isFinite, h]

theorem isNaN_of_unpack {w : Word} (h : unpack w = .nan) : isNaN w = true := by
  rw [isNaN, h]

theorem unpack_of_isNaN {w : Word} (h : isNaN w = true) : unpack w = .nan := by
  have := (isNaN_iff w).1 h
  rw [unpack_eq, if_neg (by omega), if_neg (by omega)]

/-- A pattern is finite, an infinity, or a NaN. -/
theorem kinds (w : Word) : isFinite w = true ∨ (∃ neg, w = infinity neg) ∨ isNaN w = true := by
  rw [isFinite_iff, isNaN_iff]
  rcases Nat.lt_trichotomy (lowBits w) infBits with h | h | h
  · exact .inl h
  · refine .inr (.inl ⟨signBit w, ?_⟩)
    rw [infinity, ← h, withSign_lowBits]
  · exact .inr (.inr h)

theorem units_of_finite {w : Word} (h : isFinite w = true) : units w = signed (signBit w) (magOf (lowBits w)) := by
  rw [units, unpack_of_finite h]

theorem natAbs_signed (neg : Bool) (m : Nat) : (signed neg m).natAbs = m := by
  cases neg <;> simp [signed]

theorem signed_xor_mul (s t : Bool) (m n : Nat) : signed (s ^^ t) (m * n) = signed s m * signed t n := by
  cases s <;> cases t <;> simp [signed]

theorem add32_of_finite {a b : Word} (ha : isFinite a = true) (hb : isFinite b = true) :
    add32 a b = roundSum (signBit a && signBit b) (units a + units b) := by
  rw [units_of_finite ha, units_of_finite hb, add32, unpack_of_finite ha, unpack_of_finite hb]

theorem sub32_of_finite {a b : Word} (ha : isFinite a = true) (hb : isFinite b = true) :
    sub32 a b = roundSum (signBit a && !signBit b) (units a - units b) := by
  rw [units_of_finite ha, units_of_finite hb, sub32, unpack_of_finite ha, unpack_of_finite hb]

theorem mul32_of_finite {a b : Word} (ha : isFinite a = true) (hb : isFinite b = true) :
    mul32 a b = roundTo (signBit a ^^ signBit b) ((units a).natAbs * (units b).natAbs) (2 ^ 149) := by
  rw [units_of_finite ha, units_of_finite hb, mul32, unpack_of_finite ha, unpack_of_finite hb, natAbs_signed, natAbs_signed]

theorem div32_of_finite {a b : Word} (ha : isFinite a = true) (hb : isFinite b = true) (h0 : units b ≠ 0) :
    div32 a b = roundTo (signBit a ^^ signBit b) ((units a).natAbs * 2 ^ 149) (units b).natAbs := by
  have hn : magOf (lowBits b) ≠ 0 := by
    intro h
    apply h0
    rw [units_of_finite hb, h]
    cases signBit b <;> rfl
  rw [units_of_finite ha, units_of_finite hb, div32, unpack_of_finite ha, unpack_of_finite hb, natAbs_signed, natAbs_signed]
  simp only [if_neg hn]

theorem gt32_of_finite {a b : Word} (ha : isFinite a = true) (hb : isFinite b = true) :
    gt32 a b = decide (units b < units a) := by
  rw [units_of_finite ha, units_of_finite hb, gt32, unpack_of_finite ha, unpack_of_finite hb]

theorem ge32_of_finite {a b : Word} (ha : isFinite a = true) (hb : isFinite b = true) :
    ge32 a b = decide (units b ≤ units a) := by
  rw [units_of_finite ha, units_of_finite hb, ge32, unpack_of_finite ha, unpack_of_finite hb]

/-! ## Rounding is to the nearest pattern -/

/-- A quotient's rounding is at least as near as any integer, and a tie is even. -/
theorem roundDiv_nearest (n d k : Nat) (hd : 0 < d) :
    |((roundDiv n d * d : Nat) : Int) - n| ≤ |((k * d : Nat) : Int) - n| ∧
      (|((roundDiv n d * d : Nat) : Int) - n| = |((k * d : Nat) : Int) - n| → k ≠ roundDiv n d → roundDiv n d % 2 = 0) := by
  obtain ⟨h1, h2, h3, h4⟩ := roundDiv_spec n d hd
  generalize roundDiv n d = q at *
  have hq1 : 2 * (n : Int) ≤ 2 * (q * d) + d := by
    have : (2 * n : Int) ≤ (2 * q + 1) * d := by exact_mod_cast h1
    linarith
  have hq2 : 2 * ((q : Int) * d) ≤ 2 * n + d := by
    have : (2 * q * d : Int) ≤ 2 * n + d := by exact_mod_cast h2
    linarith
  have hd' : (0 : Int) < d := by exact_mod_cast hd
  push_cast
  rcases Nat.lt_trichotomy k q with hk | rfl | hk
  · have hk' : (k : Int) * d + d ≤ q * d := by
      have : (k : Int) + 1 ≤ q := by exact_mod_cast hk
      nlinarith
    have hle : |(q : Int) * d - n| ≤ |(k : Int) * d - n| := by
      rw [abs_le]
      constructor
      · linarith [neg_abs_le ((k : Int) * d - n)]
      · linarith [neg_abs_le ((k : Int) * d - n)]
    refine ⟨hle, fun he _ => h4 ?_⟩
    have hkn : (k : Int) * d - n ≤ 0 := by linarith
    rw [abs_of_nonpos hkn] at he
    have : 2 * ((q : Int) * d) = 2 * n + d := by
      rcases abs_cases ((q : Int) * d - n) with ⟨ha, _⟩ | ⟨ha, _⟩ <;> linarith
    zify
    linarith
  · exact ⟨le_rfl, fun _ h => absurd rfl h⟩
  · have hk' : (q : Int) * d + d ≤ k * d := by
      have : (q : Int) + 1 ≤ k := by exact_mod_cast hk
      nlinarith
    have hle : |(q : Int) * d - n| ≤ |(k : Int) * d - n| := by
      rw [abs_le]
      constructor
      · linarith [le_abs_self ((k : Int) * d - n)]
      · linarith [le_abs_self ((k : Int) * d - n)]
    refine ⟨hle, fun he _ => h3 ?_⟩
    have hkn : 0 ≤ (k : Int) * d - n := by linarith
    rw [abs_of_nonneg hkn] at he
    have : 2 * (n : Int) = 2 * (q * d) + d := by
      rcases abs_cases ((q : Int) * d - n) with ⟨ha, _⟩ | ⟨ha, _⟩ <;> linarith
    zify
    linarith

/-- A significand with an exponent, as a pattern's magnitude; a significand of 2^24 has carried into the exponent. -/
theorem magOf_scaled {e q : Nat} (hq : q ≤ 2 ^ 24) (he : e ≠ 0 → 2 ^ 23 ≤ q) : magOf (e * 2 ^ 23 + q) = q * 2 ^ e := by
  unfold magOf magUnits
  by_cases h24 : q = 2 ^ 24
  · subst h24
    rw [show (e * 2 ^ 23 + 2 ^ 24) / 2 ^ 23 = e + 2 by omega, show (e * 2 ^ 23 + 2 ^ 24) % 2 ^ 23 = 0 by omega,
      if_neg (by omega), show e + 2 - 1 = e + 1 by omega, Nat.pow_succ]
    ring
  · by_cases h23 : 2 ^ 23 ≤ q
    · rw [show (e * 2 ^ 23 + q) / 2 ^ 23 = e + 1 by omega, show (e * 2 ^ 23 + q) % 2 ^ 23 = q - 2 ^ 23 by omega,
        if_neg (by omega), show 2 ^ 23 + (q - 2 ^ 23) = q by omega, Nat.add_sub_cancel]
    · obtain rfl : e = 0 := by
        by_contra h
        exact h23 (he h)
      rw [show (0 * 2 ^ 23 + q) / 2 ^ 23 = 0 by omega, show (0 * 2 ^ 23 + q) % 2 ^ 23 = q by omega, if_pos rfl]
      ring

/-- Every pattern's magnitude is a whole number of units at an exponent, or lies below the 24-bit range of that exponent. -/
theorem magOf_grid (b e : Nat) : (∃ k, magOf b = k * 2 ^ e) ∨ (e ≠ 0 ∧ magOf b < 2 ^ (e + 23)) := by
  unfold magOf magUnits
  have hF : b % 2 ^ 23 < 2 ^ 23 := Nat.mod_lt _ (by omega)
  generalize b / 2 ^ 23 = E at *
  generalize b % 2 ^ 23 = F at *
  rcases Nat.eq_zero_or_pos e with rfl | he
  · exact .inl ⟨_, by rw [Nat.pow_zero, Nat.mul_one]⟩
  · by_cases h0 : E = 0
    · rw [if_pos h0]
      have : 2 ^ 23 ≤ 2 ^ (e + 23) := Nat.pow_le_pow_right (by omega) (by omega)
      exact .inr ⟨by omega, by omega⟩
    · rw [if_neg h0]
      by_cases hle : e ≤ E - 1
      · refine .inl ⟨(2 ^ 23 + F) * 2 ^ (E - 1 - e), ?_⟩
        rw [Nat.mul_assoc, ← Nat.pow_add, show E - 1 - e + e = E - 1 by omega]
      · refine .inr ⟨by omega, ?_⟩
        calc (2 ^ 23 + F) * 2 ^ (E - 1) < 2 ^ 24 * 2 ^ (E - 1) :=
              Nat.mul_lt_mul_of_pos_right (by omega) (Nat.two_pow_pos _)
          _ = 2 ^ (24 + (E - 1)) := by rw [Nat.pow_add]
          _ ≤ 2 ^ (e + 23) := Nat.pow_le_pow_right (by omega) (by omega)

/-- The pattern a magnitude is rounded to is at least as near as any other, and a tie is even. -/
theorem roundBits_nearest (n d b : Nat) (hd : 0 < d) (hfin : roundBits n d < infBits) :
    |((magOf (roundBits n d) * d : Nat) : Int) - n| ≤ |((magOf b * d : Nat) : Int) - n| ∧
      (|((magOf (roundBits n d) * d : Nat) : Int) - n| = |((magOf b * d : Nat) : Int) - n| →
        magOf b ≠ magOf (roundBits n d) → roundBits n d % 2 = 0) := by
  obtain ⟨hq24, hq23⟩ := roundDiv_excess n d hd
  have hlow := (excessBits_spec (n / d)).2
  have hr : roundBits n d = excessBits (n / d) * 2 ^ 23 + roundDiv n (d * 2 ^ excessBits (n / d)) := by
    unfold roundBits at hfin ⊢
    omega
  rw [hr, magOf_scaled hq24 hq23]
  generalize he : excessBits (n / d) = e at *
  have hD : 0 < d * 2 ^ e := Nat.mul_pos hd (Nat.two_pow_pos e)
  have hpar : (e * 2 ^ 23 + roundDiv n (d * 2 ^ e)) % 2 = roundDiv n (d * 2 ^ e) % 2 := by omega
  rw [hpar, show roundDiv n (d * 2 ^ e) * 2 ^ e * d = roundDiv n (d * 2 ^ e) * (d * 2 ^ e) by ring]
  rcases magOf_grid b e with ⟨k, hk⟩ | ⟨h0, hlt⟩
  · rw [hk, show k * 2 ^ e * d = k * (d * 2 ^ e) by ring]
    obtain ⟨h1, h2⟩ := roundDiv_nearest n (d * 2 ^ e) k hD
    exact ⟨h1, fun heq hne => h2 heq (fun h => hne (by rw [h]))⟩
  · have h1 := (roundDiv_nearest n (d * 2 ^ e) (2 ^ 23) hD).1
    have hn : 2 ^ 23 * (d * 2 ^ e) ≤ n := by
      have := (Nat.le_div_iff_mul_le hd).1 (hlow h0)
      rw [Nat.pow_add] at this
      linarith
    have hb : magOf b * d < 2 ^ 23 * (d * 2 ^ e) := by
      have := Nat.mul_lt_mul_of_pos_right hlt hd
      rw [Nat.pow_add] at this
      linarith
    have hn' : ((2 ^ 23 * (d * 2 ^ e) : Nat) : Int) ≤ n := by exact_mod_cast hn
    have hb' : ((magOf b * d : Nat) : Int) < ((2 ^ 23 * (d * 2 ^ e) : Nat) : Int) := by exact_mod_cast hb
    rw [abs_of_nonpos (by linarith : ((2 ^ 23 * (d * 2 ^ e) : Nat) : Int) - n ≤ 0)] at h1
    have hs : |((roundDiv n (d * 2 ^ e) * (d * 2 ^ e) : Nat) : Int) - n| < |((magOf b * d : Nat) : Int) - n| := by
      rw [abs_of_neg (by linarith : ((magOf b * d : Nat) : Int) - n < 0)]
      linarith
    exact ⟨hs.le, fun h => absurd h hs.ne⟩

/-- The least magnitude, in units of 2^-149, that rounds to infinity: half a step above the greatest finite one. -/
def overflowUnits : Nat := (2 ^ 25 - 1) * 2 ^ 252

/-- Rounding overflows exactly from half a step above the greatest finite magnitude on. -/
theorem roundBits_eq_inf (n d : Nat) (hd : 0 < d) : roundBits n d = infBits ↔ overflowUnits * d ≤ n := by
  constructor
  · intro h
    by_contra hlt
    have hn : n < overflowUnits * d := by omega
    obtain ⟨hq24, -⟩ := roundDiv_excess n d hd
    have hlow := (excessBits_spec (n / d)).2
    have hm : n / d < overflowUnits := (Nat.div_lt_iff_lt_mul hd).2 hn
    have he : excessBits (n / d) ≤ 253 := by
      by_contra hgt
      have h1 := hlow (by omega)
      have h2 : 2 ^ 254 * 2 ^ 23 ≤ 2 ^ (excessBits (n / d) + 23) := by
        rw [Nat.pow_add]
        exact Nat.mul_le_mul_right _ (Nat.pow_le_pow_right (by omega) (by omega))
      have h3 : overflowUnits < 2 ^ 254 * 2 ^ 23 := by decide
      exact absurd hm (Nat.not_lt.2 ((h3.le.trans h2).trans h1))
    rcases Nat.lt_or_eq_of_le he with he | he
    · unfold roundBits infBits at h
      omega
    · have hD : 0 < d * 2 ^ 253 := Nat.mul_pos hd (Nat.two_pow_pos _)
      have hq : roundDiv n (d * 2 ^ 253) < 2 ^ 24 := by
        obtain ⟨-, h2, -⟩ := roundDiv_spec n (d * 2 ^ 253) hD
        by_contra hge
        have h3 : 2 * (2 ^ 24) * (d * 2 ^ 253) ≤ 2 * roundDiv n (d * 2 ^ 253) * (d * 2 ^ 253) :=
          Nat.mul_le_mul_right _ (by omega)
        have h4 : 2 * n < 2 * (overflowUnits * d) := by omega
        have h5 : 2 * (overflowUnits * d) + d * 2 ^ 253 = 2 * (2 ^ 24) * (d * 2 ^ 253) := by
          unfold overflowUnits
          ring
        omega
      unfold roundBits infBits at h
      rw [he] at h
      omega
  · intro h
    have h1 : roundBits overflowUnits 1 = infBits := by decide
    have h2 := roundBits_mono (n := overflowUnits) (d := 1) (n' := n) (d' := d) Nat.one_pos hd (by omega)
    have := roundBits_le n d
    omega

/-! ## Which magnitudes a pattern holds -/

/-- A magnitude of at most 24 bits at an exponent in range is held by a finite pattern. -/
theorem exists_magOf (k e : Nat) (hk : k ≤ 2 ^ 24) (he : e ≤ 252) : ∃ b, b < infBits ∧ magOf b = k * 2 ^ e := by
  induction e generalizing k with
  | zero => exact ⟨0 * 2 ^ 23 + k, by unfold infBits; omega, magOf_scaled hk (by omega)⟩
  | succ e ih =>
    by_cases h : 2 ^ 23 ≤ k
    · exact ⟨(e + 1) * 2 ^ 23 + k, by unfold infBits; omega, magOf_scaled hk (fun _ => h)⟩
    · obtain ⟨b, hb, hm⟩ := ih (2 * k) (by omega) (by omega)
      exact ⟨b, hb, by rw [hm, Nat.pow_succ]; ring⟩

/-- The same as a pattern with a sign. -/
theorem exists_pattern (neg : Bool) (k e : Nat) (hk : k ≤ 2 ^ 24) (he : e ≤ 252) :
    ∃ w : Word, isFinite w = true ∧ units w = signed neg (k * 2 ^ e) := by
  obtain ⟨b, hb, hm⟩ := exists_magOf k e hk he
  have hu := unpack_withSign neg hb
  exact ⟨withSign neg b, isFinite_of_unpack hu, by rw [units, hu, ← hm]⟩

end Sys2Proof.Machine
end

