-- ==== Sys2Proof/Laws/State.lean ====
section
/-! SUPPORT. One lemma per field per update of the state, so that no proof unfolds a record update; and the reads. -/

namespace Sys2Proof.Machine

/-! ## write_idx -/

@[simp] theorem write_idx_idx (s : State) (v : Word) : (s.write .idx v).idx = v := rfl
@[simp] theorem write_idx_inc (s : State) (v : Word) : (s.write .idx v).inc = s.inc := rfl
@[simp] theorem write_idx_fs (s : State) (v : Word) : (s.write .idx v).fs = s.fs := rfl
@[simp] theorem write_idx_ready (s : State) (v : Word) : (s.write .idx v).ready = s.ready := rfl
@[simp] theorem write_idx_rom (s : State) (v : Word) : (s.write .idx v).rom = s.rom := rfl
@[simp] theorem write_idx_faults (s : State) (v : Word) : (s.write .idx v).faults = s.faults := rfl
@[simp] theorem write_idx_commands (s : State) (v : Word) : (s.write .idx v).commands = s.commands := rfl
@[simp] theorem write_idx_port (s : State) (v : Word) : (s.write .idx v).port = s.port := rfl
@[simp] theorem write_idx_samples (s : State) (v : Word) : (s.write .idx v).samples = s.samples := rfl
@[simp] theorem write_idx_draws (s : State) (v : Word) : (s.write .idx v).draws = s.draws := rfl

/-! ## write_inc -/

@[simp] theorem write_inc_idx (s : State) (v : Word) : (s.write .inc v).idx = s.idx := rfl
@[simp] theorem write_inc_inc (s : State) (v : Word) : (s.write .inc v).inc = v := rfl
@[simp] theorem write_inc_fs (s : State) (v : Word) : (s.write .inc v).fs = s.fs := rfl
@[simp] theorem write_inc_ready (s : State) (v : Word) : (s.write .inc v).ready = s.ready := rfl
@[simp] theorem write_inc_rom (s : State) (v : Word) : (s.write .inc v).rom = s.rom := rfl
@[simp] theorem write_inc_faults (s : State) (v : Word) : (s.write .inc v).faults = s.faults := rfl
@[simp] theorem write_inc_commands (s : State) (v : Word) : (s.write .inc v).commands = s.commands := rfl
@[simp] theorem write_inc_port (s : State) (v : Word) : (s.write .inc v).port = s.port := rfl
@[simp] theorem write_inc_samples (s : State) (v : Word) : (s.write .inc v).samples = s.samples := rfl
@[simp] theorem write_inc_draws (s : State) (v : Word) : (s.write .inc v).draws = s.draws := rfl

/-! ## write_fs -/

@[simp] theorem write_fs_idx (s : State) (v : Word) : (s.write .fs v).idx = s.idx := rfl
@[simp] theorem write_fs_inc (s : State) (v : Word) : (s.write .fs v).inc = s.inc := rfl
@[simp] theorem write_fs_fs (s : State) (v : Word) : (s.write .fs v).fs = v := rfl
@[simp] theorem write_fs_ready (s : State) (v : Word) : (s.write .fs v).ready = s.ready := rfl
@[simp] theorem write_fs_rom (s : State) (v : Word) : (s.write .fs v).rom = s.rom := rfl
@[simp] theorem write_fs_faults (s : State) (v : Word) : (s.write .fs v).faults = s.faults := rfl
@[simp] theorem write_fs_commands (s : State) (v : Word) : (s.write .fs v).commands = s.commands := rfl
@[simp] theorem write_fs_port (s : State) (v : Word) : (s.write .fs v).port = s.port := rfl
@[simp] theorem write_fs_samples (s : State) (v : Word) : (s.write .fs v).samples = s.samples := rfl
@[simp] theorem write_fs_draws (s : State) (v : Word) : (s.write .fs v).draws = s.draws := rfl

/-! ## makeReady -/

@[simp] theorem makeReady_idx (s : State) : (s.makeReady).idx = s.idx := rfl
@[simp] theorem makeReady_inc (s : State) : (s.makeReady).inc = s.inc := rfl
@[simp] theorem makeReady_fs (s : State) : (s.makeReady).fs = s.fs := rfl
@[simp] theorem makeReady_ready (s : State) : (s.makeReady).ready = true := rfl
@[simp] theorem makeReady_rom (s : State) : (s.makeReady).rom = s.rom := rfl
@[simp] theorem makeReady_faults (s : State) : (s.makeReady).faults = s.faults := rfl
@[simp] theorem makeReady_commands (s : State) : (s.makeReady).commands = s.commands := rfl
@[simp] theorem makeReady_port (s : State) : (s.makeReady).port = s.port := rfl
@[simp] theorem makeReady_samples (s : State) : (s.makeReady).samples = s.samples := rfl
@[simp] theorem makeReady_draws (s : State) : (s.makeReady).draws = s.draws := rfl

/-! ## discard -/

@[simp] theorem discard_idx (s : State) : (s.discard).idx = unwrittenWord := rfl
@[simp] theorem discard_inc (s : State) : (s.discard).inc = unwrittenWord := rfl
@[simp] theorem discard_fs (s : State) : (s.discard).fs = unwrittenWord := rfl
@[simp] theorem discard_ready (s : State) : (s.discard).ready = false := rfl
@[simp] theorem discard_rom (s : State) : (s.discard).rom = s.rom := rfl
@[simp] theorem discard_faults (s : State) : (s.discard).faults = s.faults := rfl
@[simp] theorem discard_commands (s : State) : (s.discard).commands = s.commands := rfl
@[simp] theorem discard_port (s : State) : (s.discard).port = s.port := rfl
@[simp] theorem discard_samples (s : State) : (s.discard).samples = s.samples := rfl
@[simp] theorem discard_draws (s : State) : (s.discard).draws = s.draws := rfl

/-! ## accept -/

@[simp] theorem accept_idx (s : State) : (s.accept).idx = s.idx := rfl
@[simp] theorem accept_inc (s : State) : (s.accept).inc = s.inc := rfl
@[simp] theorem accept_fs (s : State) : (s.accept).fs = s.fs := rfl
@[simp] theorem accept_ready (s : State) : (s.accept).ready = s.ready := rfl
@[simp] theorem accept_rom (s : State) : (s.accept).rom = s.rom := rfl
@[simp] theorem accept_faults (s : State) : (s.accept).faults = s.faults := rfl
@[simp] theorem accept_commands (s : State) : (s.accept).commands = s.commands + 1 := rfl
@[simp] theorem accept_port (s : State) : (s.accept).port = s.port := rfl
@[simp] theorem accept_samples (s : State) : (s.accept).samples = s.samples := rfl
@[simp] theorem accept_draws (s : State) : (s.accept).draws = s.draws := rfl

/-! ## raise -/

@[simp] theorem raise_idx (s : State) (r : Fault) : (s.raise r).idx = s.idx := rfl
@[simp] theorem raise_inc (s : State) (r : Fault) : (s.raise r).inc = s.inc := rfl
@[simp] theorem raise_fs (s : State) (r : Fault) : (s.raise r).fs = s.fs := rfl
@[simp] theorem raise_ready (s : State) (r : Fault) : (s.raise r).ready = s.ready := rfl
@[simp] theorem raise_rom (s : State) (r : Fault) : (s.raise r).rom = s.rom := rfl
@[simp] theorem raise_faults (s : State) (r : Fault) : (s.raise r).faults = s.faults ++ [⟨r, s.commands⟩] := rfl
@[simp] theorem raise_commands (s : State) (r : Fault) : (s.raise r).commands = s.commands := rfl
@[simp] theorem raise_port (s : State) (r : Fault) : (s.raise r).port = s.port := rfl
@[simp] theorem raise_samples (s : State) (r : Fault) : (s.raise r).samples = s.samples := rfl
@[simp] theorem raise_draws (s : State) (r : Fault) : (s.raise r).draws = s.draws := rfl

/-! ## respond -/

@[simp] theorem respond_idx (s : State) (w : Word) : (s.respond w).idx = s.idx := rfl
@[simp] theorem respond_inc (s : State) (w : Word) : (s.respond w).inc = s.inc := rfl
@[simp] theorem respond_fs (s : State) (w : Word) : (s.respond w).fs = s.fs := rfl
@[simp] theorem respond_ready (s : State) (w : Word) : (s.respond w).ready = s.ready := rfl
@[simp] theorem respond_rom (s : State) (w : Word) : (s.respond w).rom = s.rom := rfl
@[simp] theorem respond_faults (s : State) (w : Word) : (s.respond w).faults = s.faults := rfl
@[simp] theorem respond_commands (s : State) (w : Word) : (s.respond w).commands = s.commands := rfl
@[simp] theorem respond_port (s : State) (w : Word) : (s.respond w).port = s.port := rfl
@[simp] theorem respond_samples (s : State) (w : Word) : (s.respond w).samples = s.samples ++ [w] := rfl
@[simp] theorem respond_draws (s : State) (w : Word) : (s.respond w).draws = s.draws := rfl

/-! ## respondUnspecified -/

@[simp] theorem respondUnspecified_idx (s : State) : (s.respondUnspecified).idx = s.idx := rfl
@[simp] theorem respondUnspecified_inc (s : State) : (s.respondUnspecified).inc = s.inc := rfl
@[simp] theorem respondUnspecified_fs (s : State) : (s.respondUnspecified).fs = s.fs := rfl
@[simp] theorem respondUnspecified_ready (s : State) : (s.respondUnspecified).ready = s.ready := rfl
@[simp] theorem respondUnspecified_rom (s : State) : (s.respondUnspecified).rom = s.rom := rfl
@[simp] theorem respondUnspecified_faults (s : State) : (s.respondUnspecified).faults = s.faults := rfl
@[simp] theorem respondUnspecified_commands (s : State) : (s.respondUnspecified).commands = s.commands := rfl
@[simp] theorem respondUnspecified_port (s : State) : (s.respondUnspecified).port = s.port := rfl
@[simp] theorem respondUnspecified_samples (s : State) : (s.respondUnspecified).samples = s.samples ++ [Config.freeSample s.draws] := rfl
@[simp] theorem respondUnspecified_draws (s : State) : (s.respondUnspecified).draws = s.draws + 1 := rfl

/-! ## resetEvent -/

@[simp] theorem resetEvent_idx (s : State) : (s.resetEvent).idx = unwrittenWord := rfl
@[simp] theorem resetEvent_inc (s : State) : (s.resetEvent).inc = unwrittenWord := rfl
@[simp] theorem resetEvent_fs (s : State) : (s.resetEvent).fs = unwrittenWord := rfl
@[simp] theorem resetEvent_ready (s : State) : (s.resetEvent).ready = false := rfl
@[simp] theorem resetEvent_rom (s : State) : (s.resetEvent).rom = s.rom := rfl
@[simp] theorem resetEvent_faults (s : State) : (s.resetEvent).faults = [] := rfl
@[simp] theorem resetEvent_commands (s : State) : (s.resetEvent).commands = 0 := rfl
@[simp] theorem resetEvent_port (s : State) : (s.resetEvent).port = s.port := rfl
@[simp] theorem resetEvent_samples (s : State) : (s.resetEvent).samples = s.samples := rfl
@[simp] theorem resetEvent_draws (s : State) : (s.resetEvent).draws = s.draws := rfl

/-! ## present -/

@[simp] theorem present_idx (s : State) (e : PortEvent) : (s.present e).idx = s.idx := rfl
@[simp] theorem present_inc (s : State) (e : PortEvent) : (s.present e).inc = s.inc := rfl
@[simp] theorem present_fs (s : State) (e : PortEvent) : (s.present e).fs = s.fs := rfl
@[simp] theorem present_ready (s : State) (e : PortEvent) : (s.present e).ready = s.ready := rfl
@[simp] theorem present_rom (s : State) (e : PortEvent) : (s.present e).rom = s.rom := rfl
@[simp] theorem present_faults (s : State) (e : PortEvent) : (s.present e).faults = s.faults := rfl
@[simp] theorem present_commands (s : State) (e : PortEvent) : (s.present e).commands = s.commands := rfl
@[simp] theorem present_port (s : State) (e : PortEvent) : (s.present e).port = s.port ++ [e] := rfl
@[simp] theorem present_samples (s : State) (e : PortEvent) : (s.present e).samples = s.samples := rfl
@[simp] theorem present_draws (s : State) (e : PortEvent) : (s.present e).draws = s.draws := rfl

/-! ## withFetchWord -/

@[simp] theorem withFetchWord_idx (s : State) (nbits w : Nat) : (s.withFetchWord nbits w).idx = s.idx := rfl
@[simp] theorem withFetchWord_inc (s : State) (nbits w : Nat) : (s.withFetchWord nbits w).inc = s.inc := rfl
@[simp] theorem withFetchWord_fs (s : State) (nbits w : Nat) : (s.withFetchWord nbits w).fs = s.fs := rfl
@[simp] theorem withFetchWord_ready (s : State) (nbits w : Nat) : (s.withFetchWord nbits w).ready = s.ready := rfl
@[simp] theorem withFetchWord_rom (s : State) (nbits w : Nat) : (s.withFetchWord nbits w).rom = s.rom := rfl
@[simp] theorem withFetchWord_faults (s : State) (nbits w : Nat) : (s.withFetchWord nbits w).faults = s.faults := rfl
@[simp] theorem withFetchWord_commands (s : State) (nbits w : Nat) : (s.withFetchWord nbits w).commands = s.commands := rfl
@[simp] theorem withFetchWord_port (s : State) (nbits w : Nat) : (s.withFetchWord nbits w).port = .command (BitVec.ofNat 66 (w % 2 ^ nbits)) :: s.port := rfl
@[simp] theorem withFetchWord_samples (s : State) (nbits w : Nat) : (s.withFetchWord nbits w).samples = s.samples := rfl
@[simp] theorem withFetchWord_draws (s : State) (nbits w : Nat) : (s.withFetchWord nbits w).draws = s.draws := rfl

/-! ## Reads (R14, R24) -/

theorem read_of_ready {s : State} (h : s.ready = true) :
    s.read .idx = some s.idx ∧ s.read .inc = some s.inc ∧ s.read .fs = some s.fs := by
  simp [State.read, h]

/-- While READY = 0 every register is unwritten. -/
theorem read_of_not_ready {s : State} (h : s.ready = false) (r : Reg) : s.read r = none := by
  cases r <;> simp [State.read, h]

/-- A register holds a value exactly while READY = 1. -/
theorem read_isSome (s : State) (r : Reg) : (s.read r).isSome = s.ready := by
  cases r <;> cases h : s.ready <;> simp [State.read, h]

@[simp] theorem accept_read (s : State) (r : Reg) : s.accept.read r = s.read r := by cases r <;> rfl
@[simp] theorem raise_read (s : State) (f : Fault) (r : Reg) : (s.raise f).read r = s.read r := by cases r <;> rfl
@[simp] theorem respond_read (s : State) (w : Word) (r : Reg) : (s.respond w).read r = s.read r := by cases r <;> rfl
@[simp] theorem respondUnspecified_read (s : State) (r : Reg) : s.respondUnspecified.read r = s.read r := by
  cases r <;> rfl
@[simp] theorem discard_read (s : State) (r : Reg) : s.discard.read r = none := by cases r <;> rfl
@[simp] theorem resetEvent_read (s : State) (r : Reg) : s.resetEvent.read r = none := by cases r <;> rfl
@[simp] theorem reset_read (r : Reg) : State.reset.read r = none := by cases r <;> rfl

/-- A read of the register just written gives the word written; the other registers read as before. -/
theorem write_read {s : State} (h : s.ready = true) (r r' : Reg) (v : Word) :
    (s.write r v).read r' = if r' = r then some v else s.read r' := by
  cases r <;> cases r' <;> simp [State.read, State.write, h]

end Sys2Proof.Machine
end

