-- ==== Sys2Proof/Laws/Ops.lean ====
section
/-! SUPPORT. What the shared operations can do, each said once: the table read and its canonical form, the index, the
wrap, the end of a `RENDER`, and the two cases of each meaning. -/

namespace Sys2Proof.Machine

/-! ## The table (R30, R31; log 5) -/

/-- The empty list is the reference table. -/
theorem romRead_nil (k : Fin 2048) : romRead [] k = sineRomRef k := rfl

theorem lookup_map_key (table : Fin 2048 → Word) (l : List (Fin 2048)) (k : Fin 2048) :
    (l.map (fun j => (j.val, table j))).lookup k.val = if k ∈ l then some (table k) else none := by
  induction l with
  | nil => rfl
  | cons j l ih =>
    rw [List.map_cons, List.lookup_cons, ih]
    by_cases h : k = j
    · subst h
      simp
    · have : ¬(k.val == j.val) = true := by simpa [Fin.ext_iff] using h
      simp [this, h]

/-- Every table is the reading of some listed differences, so the state can hold any SINE_ROM. -/
theorem romRead_romOfTable (table : Fin 2048 → Word) (k : Fin 2048) : romRead (romOfTable table) k = table k := by
  unfold romRead romOfTable
  rw [lookup_map_key]
  by_cases h : table k = sineRomRef k
  · simp [h]
  · simp [h]

/-- The list made of a table is in canonical form. -/
theorem romWf_romOfTable (table : Fin 2048 → Word) : romWf (romOfTable table) = true := by
  unfold romWf romOfTable
  rw [Bool.and_eq_true, decide_eq_true_eq]
  constructor
  · rw [List.all_eq_true]
    intro c hc
    obtain ⟨k, hk, rfl⟩ := List.mem_map.1 hc
    have hne := (List.mem_filter.1 hk).2
    have hlt : k.val < 2048 := k.isLt
    simpa [romCellOk, hlt] using hne
  · rw [List.pairwise_map]
    exact (List.pairwise_lt_finRange 2048).filter _

/-- No operation over the state but the writing of another table changes what the table reads as: the canonical form is
kept by every one of them, for the list itself is kept. -/
theorem romWf_kept (s : State) (r : Reg) (v : Word) (f : Fault) (e : PortEvent) (h : romWf s.rom = true) :
    romWf (s.write r v).rom = true ∧ romWf s.makeReady.rom = true ∧ romWf s.discard.rom = true ∧
      romWf s.accept.rom = true ∧ romWf (s.raise f).rom = true ∧ romWf (s.respond v).rom = true ∧
      romWf s.respondUnspecified.rom = true ∧ romWf s.resetEvent.rom = true ∧ romWf (s.present e).rom = true := by
  cases r <;> exact ⟨h, h, h, h, h, h, h, h, h⟩

theorem romWf_reset : romWf State.reset.rom = true := rfl

/-! ## The index and the wrap (R121, R123, R124) -/

/-- An index is found exactly for a finite phase that truncates to it. -/
theorem tableIndex_eq_some {p : Word} {k : Fin 2048} :
    tableIndex p = some k ↔ isFinite p = true ∧ trunc p = (k.val : Int) := by
  have hk := k.isLt
  unfold tableIndex
  split
  · rename_i h
    simp only [Bool.and_eq_true, decide_eq_true_eq] at h
    rw [Option.some.injEq, Fin.ext_iff, Fin.val_ofNat, Nat.mod_eq_of_lt (by omega)]
    constructor
    · intro he
      exact ⟨h.1.1, by omega⟩
    · rintro ⟨-, he⟩
      omega
  · rename_i h
    simp only [Bool.and_eq_true, decide_eq_true_eq] at h
    refine ⟨fun hc => by simp at hc, fun ⟨hf, he⟩ => absurd ⟨⟨hf, by omega⟩, by omega⟩ h⟩

/-- No index is found exactly for a phase that is no number or truncates outside the table. -/
theorem tableIndex_eq_none {p : Word} :
    tableIndex p = none ↔ isFinite p = false ∨ trunc p < 0 ∨ 2048 ≤ trunc p := by
  unfold tableIndex
  split
  · rename_i h
    simp only [Bool.and_eq_true, decide_eq_true_eq] at h
    refine ⟨fun hc => by simp at hc, fun ho => ?_⟩
    rcases ho with ho | ho | ho
    · rw [h.1.1] at ho
      cases ho
    · omega
    · omega
  · rename_i h
    simp only [Bool.and_eq_true, decide_eq_true_eq] at h
    refine ⟨fun _ => ?_, fun _ => rfl⟩
    by_cases hf : isFinite p = true
    · by_cases h0 : 0 ≤ trunc p
      · exact .inr (.inr (by
          by_contra h1
          exact h ⟨⟨hf, h0⟩, by omega⟩))
      · exact .inr (.inl (by omega))
    · exact .inl (by simpa using hf)

/-- The end of a `RENDER`: IDX is written in every case; one sample is returned; the fault record grows only without an index. -/
theorem sampleAt_cases (s : State) (p : Word) :
    (∃ k, tableIndex p = some k ∧ s.sampleAt p = (s.write .idx p).respond (romRead s.rom k)) ∨
      (tableIndex p = none ∧ s.sampleAt p = ((s.write .idx p).raise .idxOob).respondUnspecified) := by
  unfold State.sampleAt
  cases h : tableIndex p with
  | none => exact .inr ⟨rfl, rfl⟩
  | some k => exact .inl ⟨k, rfl, rfl⟩

/-! ## The meanings, case by case -/

theorem execSetf0_of_ready {s : State} (f0 : Word) (h : s.ready = true) :
    execSetf0 f0 s = .next (s.accept.write .inc (incOf f0 s.fs)) := by
  simp [execSetf0, (read_of_ready h).2.2]

theorem execSetf0_of_not_ready {s : State} (f0 : Word) (h : s.ready = false) :
    execSetf0 f0 s = .next (s.accept.raise .notReady) := by
  simp [execSetf0, read_of_not_ready h]

theorem execRender_of_ready {s : State} (h : s.ready = true) :
    execRender s = .next (s.accept.sampleAt (wrap (advance s.idx s.inc))) := by
  simp [execRender, (read_of_ready h).1, (read_of_ready h).2.1]

theorem execRender_of_not_ready {s : State} (h : s.ready = false) :
    execRender s = .next ((s.accept.raise .notReady).respondUnspecified) := by
  simp [execRender, read_of_not_ready h]

end Sys2Proof.Machine
end

