-- ==== Sys2Proof/Laws/PerInstr.lean ====
section
/-! SUPPORT. Statements about every instruction as syntax, one lemma per constructor: the canonical encoding lies in the
instruction's row of spec/opcode_table.json (its match under the table's mask). -/

namespace Sys2Proof.Laws.TableRow

/-- The `match` of an instruction's row in spec/opcode_table.json. -/
def matchBits : Instr → CommandWord
  | .init _ _ => 0x10000000000000000#66
  | .setf0 _ => 0x20000000000000000#66
  | .render => 0x30000000000000000#66
  | .reserved => 0#66

/-- The canonical word, under the table's mask, is the row's match. -/
def Statement (i : Instr) : Prop := encode i &&& 0x30000000000000000#66 = matchBits i

theorem masked (op : BitVec 2) (a b : Word) :
    commandWord op a b &&& 0x30000000000000000#66 = op ++ (0#32 ++ 0#32) := by
  rw [show (0x30000000000000000#66 : CommandWord) = 0b11#2 ++ (0#32 ++ 0#32) from rfl]
  unfold commandWord
  rw [BitVec.and_append, BitVec.and_append, BitVec.and_zero, BitVec.and_zero, show (0b11#2) = BitVec.allOnes 2 from rfl,
    BitVec.and_allOnes]

theorem init (fs f0 : Word) : Statement (.init fs f0) := masked _ _ _
theorem setf0 (f0 : Word) : Statement (.setf0 f0) := masked _ _ _
theorem render : Statement .render := masked _ _ _
theorem reserved : Statement .reserved := masked _ _ _

end Sys2Proof.Laws.TableRow
end

