-- ==== Sys2Proof/Laws/Value.lean ====
section
/-! SUPPORT. Laws of the rational value of a pattern, and correct rounding in its terms. -/

namespace Sys2Proof.Machine

/-- The value of a finite pattern, from its sign and magnitude. -/
theorem value_of_finite {w : Word} (h : isFinite w = true) :
    value w = (if signBit w then -1 else 1) * (magOf (lowBits w) : ℚ) / 2 ^ 149 := by
  rw [value, units_of_finite h]
  cases signBit w <;> simp [signed]

/-- Values compare as their units do. -/
theorem value_lt_iff (a b : Word) : value a < value b ↔ units a < units b := by
  unfold value
  rw [div_lt_div_iff_of_pos_right (by positivity), Int.cast_lt]

theorem value_le_iff (a b : Word) : value a ≤ value b ↔ units a ≤ units b := by
  unfold value
  rw [div_le_div_iff_of_pos_right (by positivity), Int.cast_le]

theorem value_eq_iff (a b : Word) : value a = value b ↔ units a = units b := by
  rw [le_antisymm_iff, le_antisymm_iff, value_le_iff, value_le_iff]

/-- A value below, at or above a whole number, in units. -/
theorem value_lt_int (a : Word) (z : Int) : value a < z ↔ units a < z * 2 ^ 149 := by
  unfold value
  rw [div_lt_iff₀ (by positivity)]
  exact_mod_cast Iff.rfl

theorem int_le_value (a : Word) (z : Int) : (z : ℚ) ≤ value a ↔ z * 2 ^ 149 ≤ units a := by
  rw [← not_lt, ← not_lt, value_lt_int]

theorem value_le_int (a : Word) (z : Int) : value a ≤ z ↔ units a ≤ z * 2 ^ 149 := by
  unfold value
  rw [div_le_iff₀ (by positivity)]
  exact_mod_cast Iff.rfl

theorem int_lt_value (a : Word) (z : Int) : (z : ℚ) < value a ↔ z * 2 ^ 149 < units a := by
  rw [← not_le, ← not_le, value_le_int]

theorem signBit_roundTo (neg : Bool) (n d : Nat) : signBit (roundTo neg n d) = neg := by
  refine signBit_withSign neg (lt_of_le_of_lt (roundBits_le n d) ?_)
  decide

theorem lowBits_roundTo (neg : Bool) (n d : Nat) : lowBits (roundTo neg n d) = roundBits n d := by
  refine lowBits_withSign neg (lt_of_le_of_lt (roundBits_le n d) ?_)
  decide

theorem isNaN_roundTo (neg : Bool) (n d : Nat) : isNaN (roundTo neg n d) = false := by
  have := roundBits_le n d
  rw [← Bool.not_eq_true, isNaN_iff, lowBits_roundTo]
  omega

theorem isFinite_roundTo (neg : Bool) (n d : Nat) : isFinite (roundTo neg n d) = true ↔ roundBits n d < infBits := by
  rw [isFinite_iff, lowBits_roundTo]

theorem getLsbD_zero (w : Word) : w.getLsbD 0 = decide (lowBits w % 2 = 1) := by
  rw [BitVec.getLsbD, Nat.testBit_zero, lowBits]
  congr 1
  rw [eq_iff_iff]
  omega

/-- Rounding a signed quotient of units gives the binary32 nearest to it, ties to even. -/
theorem roundTo_roundsTo (neg : Bool) (n d : Nat) (hd : 0 < d) :
    RoundsTo ((if neg then -1 else 1) * ((n : ℚ) / d) / 2 ^ 149) (roundTo neg n d) := by
  have hdq : (0 : ℚ) < d := by exact_mod_cast hd
  have hx0 : (0 : ℚ) ≤ (n : ℚ) / d := by positivity
  refine ⟨isNaN_roundTo neg n d, ?_, ?_, ?_, ?_⟩
  · rw [← Bool.not_eq_true, isFinite_roundTo, not_lt]
    have h1 : |(if neg = true then (-1 : ℚ) else 1) * ((n : ℚ) / d) / 2 ^ 149| = (n : ℚ) / d / 2 ^ 149 := by
      cases neg <;> simp [abs_div]
    rw [h1]
    have h2 : (2 : ℚ) ^ 128 - 2 ^ 103 = (overflowUnits : ℚ) / 2 ^ 149 := by
      unfold overflowUnits
      norm_num
    rw [h2, div_le_div_iff_of_pos_right (by positivity), le_div_iff₀ hdq]
    have h3 := roundBits_eq_inf n d hd
    have h4 := roundBits_le n d
    constructor
    · intro h
      exact_mod_cast h3.1 (by omega)
    · intro h
      exact (h3.2 (by exact_mod_cast h)).ge
  · intro h
    rw [signBit_roundTo]
    by_contra hneg
    rw [Bool.not_eq_true] at hneg
    subst hneg
    have : (0 : ℚ) ≤ (n : ℚ) / d / 2 ^ 149 := by positivity
    simp only [Bool.false_eq_true, if_false, one_mul] at h
    linarith
  · intro h
    rw [signBit_roundTo]
    by_contra hneg
    rw [Bool.not_eq_false] at hneg
    subst hneg
    have : (0 : ℚ) ≤ (n : ℚ) / d / 2 ^ 149 := by positivity
    simp only [if_true, neg_mul, one_mul, neg_div] at h
    linarith
  · intro hf w hw
    have hfin := (isFinite_roundTo neg n d).1 hf
    have key : ∀ b : Nat,
        |(magOf (roundBits n d) : ℚ) / 2 ^ 149 - (n : ℚ) / d / 2 ^ 149| ≤ |(magOf b : ℚ) / 2 ^ 149 - (n : ℚ) / d / 2 ^ 149| ∧
          (|(magOf (roundBits n d) : ℚ) / 2 ^ 149 - (n : ℚ) / d / 2 ^ 149| = |(magOf b : ℚ) / 2 ^ 149 - (n : ℚ) / d / 2 ^ 149| →
            magOf b ≠ magOf (roundBits n d) → roundBits n d % 2 = 0) := by
      intro b
      have scale : ∀ m : Nat, |(m : ℚ) / 2 ^ 149 - (n : ℚ) / d / 2 ^ 149| =
          ((|((m * d : Nat) : Int) - n| : Int) : ℚ) / (d * 2 ^ 149) := by
        intro m
        have : (m : ℚ) / 2 ^ 149 - (n : ℚ) / d / 2 ^ 149 = (((m * d : Nat) : Int) - (n : Int) : Int) / (d * 2 ^ 149) := by
          push_cast
          field_simp
        rw [this, abs_div, abs_of_pos (by positivity : (0 : ℚ) < d * 2 ^ 149), Int.cast_abs]
      obtain ⟨h1, h2⟩ := roundBits_nearest n d b hd hfin
      rw [scale, scale, div_le_div_iff_of_pos_right (by positivity), Int.cast_le]
      refine ⟨h1, fun heq hne => h2 ?_ hne⟩
      rw [div_left_inj' (by positivity)] at heq
      exact_mod_cast heq
    have hvr : value (roundTo neg n d) = (if neg then -1 else 1) * (magOf (roundBits n d) : ℚ) / 2 ^ 149 := by
      rw [value_of_finite hf, signBit_roundTo, lowBits_roundTo]
    have hvw := value_of_finite hw
    have hodd : (roundTo neg n d).getLsbD 0 = false ↔ roundBits n d % 2 = 0 := by
      rw [getLsbD_zero, lowBits_roundTo, decide_eq_false_iff_not]
      omega
    -- the distance does not depend on the sign when both have the same one
    have flip : ∀ m : Nat, |(if neg = true then (-1 : ℚ) else 1) * (m : ℚ) / 2 ^ 149 -
        (if neg = true then (-1 : ℚ) else 1) * ((n : ℚ) / d) / 2 ^ 149| = |(m : ℚ) / 2 ^ 149 - (n : ℚ) / d / 2 ^ 149| := by
      intro m
      cases neg
      · simp
      · rw [← abs_neg]
        congr 1
        simp
        ring
    rw [hodd]
    by_cases hs : signBit w = neg
    · rw [hs] at hvw
      rw [hvr, hvw, flip, flip]
      refine ⟨(key _).1, fun heq hne => (key _).2 heq fun hm => hne ?_⟩
      rw [hm]
    · -- the other sign: no nearer than zero, which has both
      have hz := key 0
      have hm0 : magOf 0 = 0 := rfl
      rw [hm0, Nat.cast_zero, zero_div] at hz
      have hfar : |(0 : ℚ) - (n : ℚ) / d / 2 ^ 149| + (magOf (lowBits w) : ℚ) / 2 ^ 149 =
          |value w - (if neg = true then (-1 : ℚ) else 1) * ((n : ℚ) / d) / 2 ^ 149| := by
        have hx : (0 : ℚ) ≤ (n : ℚ) / d / 2 ^ 149 := by positivity
        have hmw : (0 : ℚ) ≤ (magOf (lowBits w) : ℚ) / 2 ^ 149 := by positivity
        rw [hvw, zero_sub, abs_neg, abs_of_nonneg hx]
        cases neg
        · have hsw : signBit w = true := by simpa using hs
          simp only [hsw, if_true, Bool.false_eq_true, if_false]
          rw [abs_of_nonpos (by ring_nf at hx hmw ⊢; linarith)]
          ring
        · have hsw : signBit w = false := by simpa using hs
          simp only [hsw, if_true, Bool.false_eq_true, if_false]
          rw [abs_of_nonneg (by ring_nf at hx hmw ⊢; linarith)]
          ring
      have hmw : (0 : ℚ) ≤ (magOf (lowBits w) : ℚ) / 2 ^ 149 := by positivity
      rw [hvr, flip, ← hfar]
      refine ⟨by linarith [hz.1], fun heq hne => hz.2 ?_ ?_⟩
      · linarith [hz.1]
      · intro h0
        apply hne
        have hzero : (magOf (lowBits w) : ℚ) / 2 ^ 149 = 0 := by linarith [hz.1]
        rw [hvw, mul_div_assoc, hzero, ← h0]
        simp

/-- An exact sum of units, rounded, is the binary32 nearest to it. -/
theorem roundSum_roundsTo (negZero : Bool) (z : Int) : RoundsTo ((z : ℚ) / 2 ^ 149) (roundSum negZero z) := by
  unfold roundSum
  split
  · rename_i h
    have hz : zero negZero = roundTo negZero 0 1 := by cases negZero <;> decide
    rw [h, hz]
    simpa using roundTo_roundsTo negZero 0 1 Nat.one_pos
  · convert roundTo_roundsTo (decide (z < 0)) z.natAbs 1 Nat.one_pos using 1
    rcases lt_or_ge z 0 with h | h
    · simp [h, abs_of_neg h]
    · simp [not_lt.2 h, abs_of_nonneg h]

/-! ## What correct rounding gives -/

/-- Every finite value is far below the overflow threshold of rounding. -/
theorem abs_value_lt (w : Word) : |value w| < 2 ^ 128 - 2 ^ 103 := by
  by_cases h : isFinite w = true
  · have hb := (isFinite_iff w).1 h
    have h1 : |value w| = (magOf (lowBits w) : ℚ) / 2 ^ 149 := by
      rw [value_of_finite h]
      cases signBit w <;> simp [abs_div]
    have h2 : magOf (lowBits w) < overflowUnits := by
      refine lt_of_le_of_lt (magOf_le (b := infBits - 1) (by decide) (by omega)) (by decide)
    have h3 : (2 : ℚ) ^ 128 - 2 ^ 103 = (overflowUnits : ℚ) / 2 ^ 149 := by
      unfold overflowUnits
      norm_num
    rw [h1, h3, div_lt_div_iff_of_pos_right (by positivity)]
    exact_mod_cast h2
  · have h0 : units w = 0 := by
      unfold isFinite at h
      unfold units
      split at h <;> simp_all
    rw [value, h0]
    norm_num

/-- A rounded result is finite when the exact value is no greater in size than a finite value. -/
theorem RoundsTo.finite {x : ℚ} {r : Word} (h : RoundsTo x r) (w : Word) (hx : |x| ≤ |value w|) : isFinite r = true := by
  by_contra hf
  rw [Bool.not_eq_true] at hf
  have := h.2.1.1 hf
  have := abs_value_lt w
  linarith

/-- Rounding does not pass a finite value from below. -/
theorem RoundsTo.le_value {x : ℚ} {r w : Word} (h : RoundsTo x r) (hr : isFinite r = true) (hw : isFinite w = true)
    (hx : x ≤ value w) : value r ≤ value w := by
  have h1 := (h.2.2.2.2 hr w hw).1
  by_contra hlt
  rw [abs_of_nonneg (by linarith : 0 ≤ value r - x), abs_of_nonneg (by linarith : 0 ≤ value w - x)] at h1
  linarith

/-- Rounding does not pass a finite value from above. -/
theorem RoundsTo.value_le {x : ℚ} {r w : Word} (h : RoundsTo x r) (hr : isFinite r = true) (hw : isFinite w = true)
    (hx : value w ≤ x) : value w ≤ value r := by
  have h1 := (h.2.2.2.2 hr w hw).1
  by_contra hlt
  rw [abs_of_nonpos (by linarith : value r - x ≤ 0), abs_of_nonpos (by linarith : value w - x ≤ 0)] at h1
  linarith

/-- An exact value that a finite pattern holds is kept. -/
theorem RoundsTo.exact {x : ℚ} {r w : Word} (h : RoundsTo x r) (hw : isFinite w = true) (hx : x = value w) :
    isFinite r = true ∧ value r = value w := by
  have hr := h.finite w (by rw [hx])
  exact ⟨hr, le_antisymm (h.le_value hr hw hx.le) (h.value_le hr hw hx.ge)⟩

/-- The largest phase below 2048 is `0x44ffffff`: no pattern lies between. -/
theorem value_le_of_lt_2048 {w : Word} (hw : isFinite w = true) (h : value w < 2048) : value w ≤ value 0x44ffffff#32 := by
  rw [value_le_iff]
  have hu : units w < 2048 * 2 ^ 149 := (value_lt_int w 2048).1 (by exact_mod_cast h)
  rw [units_of_finite hw] at hu ⊢
  have htop : units 0x44ffffff#32 = (magOf 0x44ffffff : Int) := by decide
  rw [htop]
  cases hs : signBit w <;> rw [hs] at hu
  · simp only [signed, Bool.false_eq_true, if_false] at hu ⊢
    have h45 : (2048 * 2 ^ 149 : Int) = (magOf 0x45000000 : Int) := by decide
    rw [h45] at hu
    have hlt : lowBits w < 0x45000000 := by
      by_contra hge
      have h1 := (isFinite_iff w).1 hw
      have h2 := magOf_le h1 (not_lt.1 hge)
      have h3 : (magOf 0x45000000 : Int) ≤ magOf (lowBits w) := by exact_mod_cast h2
      linarith
    exact_mod_cast magOf_le (b := 0x44ffffff) (by decide) (by omega)
  · simp only [signed, if_true]
    have : (0 : Int) ≤ magOf (lowBits w) := Int.natCast_nonneg _
    have : (0 : Int) ≤ magOf 0x44ffffff := Int.natCast_nonneg _
    linarith

end Sys2Proof.Machine
end

