-- ==== Sys2Proof/Tests/Slice0.lean ====
section
/-! SUPPORT. The model's own tests. Expected results come from the spec's vectors and tables (cited by each test), never from
the model. Then a witness for the hypotheses of every statement that has any, at boundary values. -/

namespace Sys2Proof.Tests

open Sys2Proof Sys2Proof.Machine

/-- The next state of an outcome, if it is one. -/
def nextOf : Host.Outcome State Fault Refusal → Option State
  | .next s => some s
  | .fault _ => none
  | .refused _ => none

/-- A constructed instance with a phase, an increment and a sample rate of 48000. -/
def readyState (idx inc : Word) : State := { State.reset with idx := idx, inc := inc, fs := 0x473b8000#32, ready := true, commands := 1 }

/-! ## Decoding: words written out from R71 and R72 (OP, then A, then B) and 95_test_vectors 2.5 -/

theorem test_decode_init : decode (0b010100011100111011100000000000000001000011110111000000000000000000#66) =
    .init 0x473b8000#32 0x43dc0000#32 := by decide

theorem test_decode_setf0_ignores_b : decode (0b100100010001011100000000000000000011011110101011011011111011101111#66) =
    .setf0 0x445c0000#32 := by decide

theorem test_decode_render_ignores_fields : decode (0x3123456789abcdef0#66) = .render := by decide

theorem test_decode_reserved : decode (0x0ffffffffffffffff#66) = .reserved := by decide

theorem test_decode_table_word : decodeTableWord 72 0x1473b800043dc0000 = some (.init 0x473b8000#32 0x43dc0000#32) ∧
    decodeTableWord 72 (2 ^ 66) = none := by decide

/-- R81: `INIT 2048, #0x44ffffff ; INC` assembles to `0x1_45000000_44ffffff`, and a blank line to nothing. -/
theorem test_assemble : assemble [['i', 'n', 'i', 'T', ' ', '2', '0', '4', '8', ',', '#', '0', 'x', '4', '4', 'f', 'f', 'f', 'f',
    'f', 'f', ' ', ';', ' ', 'I'], [';']] = some [0x14500000044ffffff#66] := by decide

/-- R79: `-0.5` is `0xbf000000`, `nan` is `0x7fc00000`; a number with no digits is refused. -/
theorem test_operands : operand ['-', '0', '.', '5'] = some 0xbf000000#32 ∧ operand ['n', 'a', 'n'] = some 0x7fc00000#32 ∧
    operand ['-'] = none := by decide

/-! ## Well-formedness: an ill-formed term for each check -/

theorem test_wf_instructions : (Instr.init 0x7fc00000#32 0xff800000#32).wf = true ∧ Instr.reserved.wf = true := by decide

theorem test_wf_refuses_wide_number : isCommandNumber (2 ^ 66) = false ∧ isCommandNumber (2 ^ 66 - 1) = true := by decide

theorem test_wf_refuses_rom : romWf [(1, 0#32), (0, 1#32)] = false ∧ romWf [(1, 0#32), (1, 1#32)] = false ∧
    romWf [(512, 0x3f800000#32)] = false ∧ romWf [(2048, 0#32)] = false ∧ romWf [(0, 1#32), (2047, 0#32)] = true := by decide +kernel

/-! ## The commands, one step each -/

/-- I1 of 95_test_vectors, presented as a word at the port. -/
theorem test_init : (nextOf (step (State.reset.withFetchWord 72 0x1473b800043dc0000))).map
    (fun t => (t.ready, t.fs, t.inc, t.idx, t.faults)) = some (true, 0x473b8000#32, 0x41962fc9#32, 0#32, []) := by decide

/-- I13: `fs = -0.0` is refused, from READY. -/
theorem test_init_rejects_negative_zero : (nextOf (exec (.init 0x80000000#32 0x43dc0000#32) (readyState 0#32 0#32))).map
    (fun t => (t.ready, t.read .idx, t.read .inc, t.read .fs, t.faults)) =
    some (false, none, none, none, [⟨.cfgFs, 2⟩]) := by decide

/-- S1: the increment changes, the phase does not. -/
theorem test_setf0 : (nextOf (exec (.setf0 0x445c0000#32) (readyState 0x41962fc9#32 0x41962fc9#32))).map
    (fun t => (t.inc, t.idx, t.faults)) = some (0x42162fc9#32, 0x41962fc9#32, []) := by decide

/-- S6: before construction. -/
theorem test_setf0_not_ready : (nextOf (exec (.setf0 0x43dc0000#32) State.reset)).map (fun t => (t.ready, t.faults)) =
    some (false, [⟨.notReady, 1⟩]) := by decide

/-- R6: the first wrap of Scenario A reads entry 17. -/
theorem test_render_wraps : (nextOf (exec .render (readyState 0x44ffc959#32 0x41962fc9#32))).map
    (fun t => (t.idx, t.samples, t.faults)) = some (0x41888600#32, [0x3d55880e#32], []) := by decide

/-- R24: the tie `4096 - 2^-13` rounds to 4096, wraps to 2048 and faults; IDX is written. -/
theorem test_render_out_of_table : (nextOf (exec .render (readyState 0x44ffffff#32 0x45000000#32))).map
    (fun t => (t.idx, t.samples.length, t.faults)) = some (0x45000000#32, 1, [⟨.idxOob, 2⟩]) := by decide

/-- X2: the registers keep their values. -/
theorem test_reserved : (nextOf (exec (decode 0x0473b800043dc0000#66) (readyState 0#32 0x41962fc9#32))).map
    (fun t => (t.idx, t.inc, t.samples, t.faults)) = some (0#32, 0x41962fc9#32, [], [⟨.illegalCmd, 2⟩]) := by decide

/-! ## Arithmetic: vectors R29, R25, R15, R16 and R10, I11, and a NaN result -/

theorem test_arithmetic : add32 0x44ffffff#32 0x44ffffff#32 = 0x457fffff#32 ∧ wrap 0x457fffff#32 = 0x44fffffe#32 ∧
    add32 0x44ffffff#32 0x38800000#32 = 0x45000000#32 ∧ tableIndex 0xbf000000#32 = some 0 ∧ tableIndex 0xbf800000#32 = none ∧
    add32 0#32 0x80000000#32 = 0#32 := by decide

/-- I11: the smallest subnormal as a sample rate. -/
theorem test_increment_overflows : incOf 0x3f800000#32 0x00000001#32 = 0x7f800000#32 := by decide +kernel

/-- I10: `INIT inf, inf` gives a NaN increment, whatever its bits. -/
theorem test_nan_increment : isNaN (incOf 0x7f800000#32 0x7f800000#32) = true := isNaN_of_unpack (unpack_nanResult _ _ _)

/-! ## Witnesses of the statements' hypotheses -/

/-- A phase in range, from its units. -/
theorem inPhase_of {w : Word} (h : isFinite w = true ∧ 0 ≤ units w ∧ units w < 2048 * 2 ^ 149) : InPhase w :=
  ⟨h.1, by simpa using (int_le_value w 0).2 (by simpa using h.2.1), by simpa using (value_lt_int w 2048).2 h.2.2⟩

theorem witness_StepRunsDecodedCommand : (∃ (s : State) (cw : CommandWord) (rest : List PortEvent), s.port = .command cw :: rest) ∧
    ∃ (nbits w : Nat) (i : Instr), decodeTableWord nbits w = some i :=
  ⟨⟨{ State.reset with port := [.command 0#66] }, 0#66, [], rfl⟩, 72, 0x30000000000000000, .render, by decide⟩

theorem witness_StepHoldsStateWithoutEvent : ∃ s : State, s.port = [] := ⟨State.reset, rfl⟩

theorem witness_ResetEventLeavesUninit : ∃ (s : State) (rest : List PortEvent), s.port = .reset :: rest :=
  ⟨{ readyState 0#32 0#32 with port := [.reset] }, [], rfl⟩

theorem witness_InitConstructs : gt32 0x00000001#32 f32Zero = true ∧ gt32 0x7f800000#32 f32Zero = true := by decide

theorem witness_InitRejectsSampleRate : gt32 0#32 f32Zero = false ∧ gt32 0x80000000#32 f32Zero = false ∧
    gt32 0x7f800001#32 f32Zero = false ∧ gt32 0xff800000#32 f32Zero = false := by decide

/-- Both ends of both clauses: 0 and 1, `+inf` and the least NaN. -/
theorem witness_InitAcceptsPositiveRates : (1 ≤ (0x00000001#32 : Word).toNat ∧ (0x7f800000#32 : Word).toNat ≤ 0x7f800000) ∧
    (0#32 : Word).toNat = 0 ∧ 0x7f800000 < (0x7f800001#32 : Word).toNat := by decide

theorem witness_LifecycleMachine : (∃ (s : State) (rest : List PortEvent), s.port = .reset :: rest) ∧
    (∃ s : State, s.ready = true) ∧ (∃ s : State, s.ready = false) ∧ gt32 0x473b8000#32 f32Zero = true ∧
    gt32 0x7fc00000#32 f32Zero = false :=
  ⟨⟨{ readyState 0#32 0#32 with port := [.reset] }, [], rfl⟩, ⟨readyState 0#32 0#32, rfl⟩, ⟨State.reset, rfl⟩, by decide, by decide⟩

theorem witness_SetF0WritesIncrement : ∃ s : State, s.ready = true := ⟨readyState 0#32 0#32, rfl⟩

theorem witness_NotReadyFaults : ∃ s : State, s.ready = false := ⟨State.reset, rfl⟩

theorem witness_RenderReturnsEntry : ∃ (s : State) (k : Fin 2048), s.ready = true ∧ isFinite (wrap (add32 s.idx s.inc)) = true ∧
    trunc (wrap (add32 s.idx s.inc)) = (k.val : Int) := ⟨readyState 0x44ffffff#32 0#32, 2047, by decide⟩

theorem witness_RenderOutOfTable : (∃ s : State, s.ready = true ∧ isFinite (wrap (add32 s.idx s.inc)) = false) ∧
    (∃ s : State, s.ready = true ∧ trunc (wrap (add32 s.idx s.inc)) < 0) ∧
    ∃ s : State, s.ready = true ∧ 2047 < trunc (wrap (add32 s.idx s.inc)) :=
  ⟨⟨readyState 0x7f800000#32 0#32, by decide⟩, ⟨readyState 0xbf800000#32 0#32, by decide⟩,
    ⟨readyState 0x45000000#32 0x45000000#32, by decide⟩⟩

theorem witness_CommandFrames : ∀ i ∈ [Instr.init 0x473b8000#32 0#32, .setf0 0#32, .render, .reserved],
    ∃ t, exec i (readyState 0#32 0#32) = .next t := by
  simp only [List.forall_mem_cons, List.not_mem_nil, false_implies, implies_true, and_true]
  exact ⟨⟨_, rfl⟩, ⟨_, rfl⟩, ⟨_, rfl⟩, ⟨_, rfl⟩⟩

theorem witness_StepKeepsInvariant : ∃ s t : State, s.Inv ∧ step s = .next t :=
  ⟨{ readyState 0#32 0x44000000#32 with port := [.command 0x30000000000000000#66], faults := [⟨.notReady, 1⟩] }, _,
    ⟨by decide, by decide, by decide, ⟨by decide, by decide⟩⟩, rfl⟩

theorem witness_RunIsComposition : ∃ s : State, s.port = [] := ⟨readyState 0#32 0#32, rfl⟩

theorem witness_InstancesAreIndependent : ∃ (voices : Voices) (k : Nat) (s : State), voices[k]? = some s :=
  ⟨[State.reset, readyState 0#32 0#32], 1, readyState 0#32 0#32, rfl⟩

theorem witness_SumRoundsToNearest : ∃ a b : Word, isFinite a = true ∧ isFinite b = true ∧ value a + value b = 0 :=
  ⟨0x3f800000#32, 0xbf800000#32, by decide, by decide, by
    rw [value, value, show units 0xbf800000#32 = -units 0x3f800000#32 by decide]
    push_cast
    ring⟩

theorem witness_DifferenceRoundsToNearest : ∃ a b : Word, isFinite a = true ∧ isFinite b = true ∧ value a - value b = 0 :=
  ⟨0x7f7fffff#32, 0x7f7fffff#32, by decide, by decide, sub_self _⟩

theorem witness_ProductRoundsToNearest : ∃ a b : Word, isFinite a = true ∧ isFinite b = true :=
  ⟨0x00000001#32, 0x7f7fffff#32, by decide⟩

theorem witness_QuotientRoundsToNearest : ∃ a b : Word, isFinite a = true ∧ isFinite b = true ∧ value b ≠ 0 :=
  ⟨0x80000000#32, 0x00000001#32, by decide, by decide, ne_of_gt (by simpa using (int_lt_value 0x00000001#32 0).2 (by decide))⟩

theorem witness_SpecialOperands : (∃ a b : Word, (isNaN a || isNaN b) = true) ∧ ∃ a : Word, isFinite a = true ∧ value a ≠ 0 :=
  ⟨⟨0#32, 0xffffffff#32, by decide⟩, 0x00000001#32, by decide,
    ne_of_gt (by simpa using (int_lt_value 0x00000001#32 0).2 (by decide))⟩

theorem witness_ComparisonsOrderValues : (∃ a b : Word, isFinite a = true ∧ isFinite b = true) ∧
    ∃ a b : Word, (isNaN a || isNaN b) = true := ⟨⟨0#32, 0x80000000#32, by decide⟩, 0x7fc00000#32, 0#32, by decide⟩

theorem witness_TruncIsTowardZero : (∃ a : Word, isFinite a = true ∧ 0 ≤ value a) ∧ ∃ a : Word, isFinite a = true ∧ value a ≤ 0 :=
  ⟨⟨0x44ffffff#32, by decide, by simpa using (int_le_value 0x44ffffff#32 0).2 (by decide)⟩,
    ⟨0xbf7fffff#32, by decide, by simpa using (value_le_int 0xbf7fffff#32 0).2 (by decide)⟩⟩

theorem two117 : (2 : ℚ) ^ 117 = ((2 ^ 117 : Int) : ℚ) := by norm_num

/-- The two clauses meet at 2^117, the pattern `0x7a000000`. -/
theorem witness_IncrementIsRoundedQuotient : (isFinite 0x79ffffff#32 = true ∧ |value 0x79ffffff#32| < 2 ^ 117) ∧
    (isFinite 0x7a000000#32 = true ∧ 2 ^ 117 ≤ |value 0x7a000000#32|) ∧ isFinite 0x473b8000#32 = true ∧ 0 < value 0x473b8000#32 := by
  refine ⟨⟨by decide, ?_⟩, ⟨by decide, le_abs.2 (.inl ?_)⟩, by decide, ?_⟩
  · rw [abs_of_nonneg (by simpa using (int_le_value 0x79ffffff#32 0).2 (by decide)), two117]
    exact (value_lt_int 0x79ffffff#32 _).2 (by decide)
  · rw [two117]
    exact (int_le_value 0x7a000000#32 _).2 (by decide)
  · simpa using (int_lt_value 0x473b8000#32 0).2 (by decide)

theorem witness_IncrementCornerCases : (gt32 0x00000001#32 f32Zero = true ∧ isFinite 0x00000001#32 = true) ∧
    gt32 0x7f800000#32 f32Zero = true ∧ isFinite 0x7f800000#32 = false ∧ isNaN 0x7fc00000#32 = true ∧
    isFinite 0x80000001#32 = true ∧ |value 0x80000001#32| < 2 ^ 117 := by
  refine ⟨by decide, by decide, by decide, by decide, by decide, abs_lt.2 ⟨?_, ?_⟩⟩
  · rw [two117, ← Int.cast_neg]
    exact (int_lt_value 0x80000001#32 _).2 (by decide)
  · rw [two117]
    exact (value_lt_int 0x80000001#32 _).2 (by decide)

/-- A frequency just below `fs/2`: 23999.998 (`0x46bb7fff`) at 48000. -/
theorem subNyquist_48000 : isFinite 0x473b8000#32 = true ∧ isFinite 0x46bb7fff#32 = true ∧ 2 ^ (-125 : ℤ) ≤ value 0x473b8000#32 ∧
    0 < value 0x46bb7fff#32 ∧ value 0x46bb7fff#32 < value 0x473b8000#32 / 2 ∧ value 0x46bb7fff#32 < 2 ^ 117 := by
  have h1 : (48000 : ℚ) ≤ value 0x473b8000#32 := by exact_mod_cast (int_le_value 0x473b8000#32 48000).2 (by decide)
  have h2 : value 0x46bb7fff#32 < (24000 : ℚ) := by exact_mod_cast (value_lt_int 0x46bb7fff#32 24000).2 (by decide)
  have h3 : (2 : ℚ) ^ (-125 : ℤ) ≤ 48000 := by norm_num
  have h4 : (24000 : ℚ) < 2 ^ 117 := by norm_num
  exact ⟨by decide, by decide, by linarith, by simpa using (int_lt_value 0x46bb7fff#32 0).2 (by decide), by linarith, by linarith⟩

theorem witness_NyquistBound : ∃ f0 fs : Word, isFinite fs = true ∧ isFinite f0 = true ∧ 2 ^ (-125 : ℤ) ≤ value fs ∧ 0 < value f0 ∧
    value f0 < value fs / 2 ∧ value f0 < 2 ^ 117 := ⟨_, _, subNyquist_48000⟩

/-- Each clause of `SingleWrap` at its boundary: below 2048, 2048 and 4096 themselves, and the greatest finite pattern. -/
theorem witness_SingleWrap : (isFinite 0x44ffffff#32 = true ∧ value 0x44ffffff#32 < 2048) ∧ isNaN 0x7fc00000#32 = true ∧
    (isFinite 0x45000000#32 = true ∧ 2048 ≤ value 0x45000000#32 ∧ value 0x45000000#32 ≤ 4096) ∧
    (isFinite 0x45800000#32 = true ∧ 2048 ≤ value 0x45800000#32 ∧ value 0x45800000#32 ≤ 4096) ∧
    isFinite 0x7f7fffff#32 = true ∧ 2048 ≤ value 0x7f7fffff#32 := by
  refine ⟨⟨by decide, ?_⟩, by decide, ⟨by decide, ?_, ?_⟩, ⟨by decide, ?_, ?_⟩, by decide, ?_⟩
  · exact_mod_cast (value_lt_int 0x44ffffff#32 2048).2 (by decide)
  · exact_mod_cast (int_le_value 0x45000000#32 2048).2 (by decide)
  · exact_mod_cast (value_le_int 0x45000000#32 4096).2 (by decide)
  · exact_mod_cast (int_le_value 0x45800000#32 2048).2 (by decide)
  · exact_mod_cast (value_le_int 0x45800000#32 4096).2 (by decide)
  · exact_mod_cast (int_le_value 0x7f7fffff#32 2048).2 (by decide)

/-- Both clauses where they meet: at 4096 and just below, at -1 and just above. -/
theorem witness_PreWrapSumDecides :
    [0x45800000#32, 0x457fffff#32, 0xbf800000#32, 0xbf7fffff#32].map (fun w => (isNaN (add32 w 0#32) ||
      ge32 (add32 w 0#32) 0x45800000#32 || ge32 0xbf800000#32 (add32 w 0#32))) = [true, false, true, false] ∧
    ∀ w : Word, (readyState w 0#32).ready = true := ⟨by decide, fun _ => rfl⟩

theorem witness_NonFinitePhaseFaults : ∀ s ∈ [readyState 0x7fc00000#32 0#32, readyState 0#32 0x7f800000#32,
      readyState (infinity true) (infinity true), readyState (infinity true) (infinity false), readyState (infinity false) 0#32],
    s.ready = true ∧ (isFinite s.idx && isFinite s.inc) = false := by decide

theorem witness_NaNPhaseStaysUntilInit : ∃ (cmds : List Instr) (s : State), s.ready = true ∧ isNaN s.idx = true ∧
    ∀ i ∈ cmds, i = .render ∨ i = .reserved ∨ ∃ f0, i = .setf0 f0 :=
  ⟨[.render, .reserved, .setf0 0x43dc0000#32, .render], readyState 0x7fc00000#32 0#32, rfl, by decide, by simp⟩

theorem witness_NegativeIncrementRunsBackwards : ∃ s : State, s.ready = true ∧ isFinite s.idx = true ∧ -1 < value s.idx ∧
    value s.idx < 2048 ∧ isFinite s.inc = true ∧ value s.inc < 0 := by
  refine ⟨readyState 0xbf000000#32 0xbf000000#32, rfl, by decide, ?_, ?_, by decide, ?_⟩
  · exact_mod_cast (int_lt_value 0xbf000000#32 (-1)).2 (by decide)
  · exact_mod_cast (value_lt_int 0xbf000000#32 2048).2 (by decide)
  · exact_mod_cast (value_lt_int 0xbf000000#32 0).2 (by decide)

theorem witness_RangeInvariant : ∃ s : State, s.ready = true ∧ InPhase s.idx ∧ InPhase s.inc :=
  ⟨readyState 0x44ffffff#32 0x44ffffff#32, rfl, inPhase_of (by decide), inPhase_of (by decide)⟩

theorem witness_InterleavedHostsStayInRange : ∃ (renders settings cmds : List Instr) (s : State), s.ready = true ∧ InPhase s.idx ∧
    InPhase s.inc ∧ (∀ i ∈ renders, i = .render) ∧ (∀ i ∈ settings, ∃ f0, i = .setf0 f0 ∧ InPhase (incOf f0 s.fs)) ∧
    Interleaves renders settings cmds := by
  refine ⟨[.render, .render], [.setf0 0x445c0000#32], [.render, .setf0 0x445c0000#32, .render], readyState 0#32 0#32, rfl,
    inPhase_of (by decide), inPhase_of (by decide), by simp, ?_, .left (.right (.left .nil))⟩
  intro i hi
  rw [List.mem_singleton] at hi
  exact ⟨0x445c0000#32, hi, inPhase_of (by decide)⟩

theorem witness_SubNyquistSessionNeverFaults : ∃ (fs f0 : Word) (cmds : List Instr), isFinite fs = true ∧
    2 ^ (-125 : ℤ) ≤ value fs ∧ (∀ f, f = f0 ∨ Instr.setf0 f ∈ cmds →
      isFinite f = true ∧ 0 < value f ∧ value f < value fs / 2 ∧ value f < 2 ^ 117) ∧
    ∀ i ∈ cmds, i = .render ∨ ∃ f, i = .setf0 f := by
  obtain ⟨h1, h2, h3, h4, h5, h6⟩ := subNyquist_48000
  refine ⟨0x473b8000#32, 0x46bb7fff#32, [.render, .setf0 0x46bb7fff#32, .render], h1, h3, ?_, by simp⟩
  intro f hf
  have : f = 0x46bb7fff#32 := by simpa using hf
  subst this
  exact ⟨h2, h4, h5, h6⟩

theorem witness_SumRoundsOntoTableLength : ∃ s : State, s.ready = true ∧ isFinite s.idx = true ∧ isFinite s.inc = true ∧
    2048 - 1 / 2 ^ 14 ≤ value s.idx + value s.inc ∧ value s.idx + value s.inc < 2048 := by
  refine ⟨readyState 0x44ffffff#32 0x38800000#32, rfl, by decide, by decide, ?_⟩
  rw [show (readyState 0x44ffffff#32 0x38800000#32).idx = 0x44ffffff#32 from rfl,
    show (readyState 0x44ffffff#32 0x38800000#32).inc = 0x38800000#32 from rfl, value, value,
    show units 0x44ffffff#32 = (2 ^ 24 - 1) * 2 ^ 136 by decide, show units 0x38800000#32 = 2 ^ 135 by decide]
  constructor <;> norm_num

theorem witness_IncrementExactlyTableLength : (∀ w : Word, (readyState w 0x45000000#32).ready = true ∧
    (readyState w 0x45000000#32).inc = 0x45000000#32 ∧ (readyState w 0x45000000#32).idx = w) ∧
    InPhase 0x44ffffff#32 ∧ InPhase 0x44fffffe#32 ∧ InPhase 0#32 :=
  ⟨fun _ => ⟨rfl, rfl, rfl⟩, inPhase_of (by decide), inPhase_of (by decide), inPhase_of (by decide)⟩

theorem witness_IncrementAboveTableLength : ∃ s : State, s.ready = true ∧ isFinite s.idx = true ∧ 0 ≤ value s.idx ∧
    isFinite s.inc = true ∧ 2048 < value s.inc ∧ 4096 ≤ value s.inc := by
  refine ⟨readyState 0#32 0x45800000#32, rfl, by decide, ?_, by decide, ?_, ?_⟩
  · exact_mod_cast (int_le_value 0#32 0).2 (by decide)
  · exact_mod_cast (int_lt_value 0x45800000#32 2048).2 (by decide)
  · exact_mod_cast (int_le_value 0x45800000#32 4096).2 (by decide)

/-- The least increment above 2048, which takes longest. -/
theorem witness_IncrementAboveTableLengthFaultsInTime : ∃ s : State, s.ready = true ∧ isFinite s.idx = true ∧ 0 ≤ value s.idx ∧
    isFinite s.inc = true ∧ 2048 < value s.inc ∧ value s.inc < 4096 := by
  refine ⟨readyState 0#32 0x45000001#32, rfl, by decide, ?_, by decide, ?_, ?_⟩
  · exact_mod_cast (int_le_value 0#32 0).2 (by decide)
  · exact_mod_cast (int_lt_value 0x45000001#32 2048).2 (by decide)
  · exact_mod_cast (value_lt_int 0x45000001#32 4096).2 (by decide)

theorem witness_ZeroIncrementRepeatsEntry : ∃ s : State, s.ready = true ∧ InPhase s.idx ∧ s.idx ≠ 0x80000000#32 ∧
    ∃ neg, s.inc = zero neg :=
  ⟨readyState 0x44ffffff#32 0x80000000#32, rfl, inPhase_of (w := 0x44ffffff#32) (by decide), by decide, true, by decide⟩

/-- R133's example: 1024.0 and exactly half a step, 2^-14, with an even significand. -/
theorem witness_SmallIncrementStagnates : ∃ s : State, s.ready = true ∧ InPhase s.idx ∧ 1 ≤ exponentField s.idx ∧
    isFinite s.inc = true ∧ 0 < value s.inc ∧ value s.inc = 2 ^ ((exponentField s.idx : ℤ) - 151) ∧ s.idx.getLsbD 0 = false := by
  refine ⟨readyState 0x44800000#32 0x38800000#32, rfl, inPhase_of (by decide), by decide, by decide, ?_, ?_, by decide⟩
  · exact_mod_cast (int_lt_value 0x38800000#32 0).2 (by decide)
  · rw [show (readyState 0x44800000#32 0x38800000#32).inc = 0x38800000#32 from rfl,
      show exponentField (readyState 0x44800000#32 0x38800000#32).idx = 137 by decide, value,
      show units 0x38800000#32 = 2 ^ 135 by decide]
    norm_num

/-- A table that reads as `+0.0` everywhere has P2, and its `RENDER` from phase 0 does not fault. -/
theorem silent_render (rom : List RomCell) (h : ∀ k, romRead rom k = 0#32) :
    ∃ s t : State, InUnitRange s.memRead ∧ exec .render s = .next t ∧ t.faults = s.faults := by
  refine ⟨{ readyState 0#32 0#32 with rom := rom }, _, fun i => ?_,
    execRender_of_ready (s := { readyState 0#32 0#32 with rom := rom }) rfl, ?_⟩
  · rw [State.memRead, h]
    refine ⟨by decide, ?_, ?_⟩
    · exact_mod_cast (int_le_value 0#32 (-1)).2 (by decide)
    · exact_mod_cast (value_le_int 0#32 1).2 (by decide)
  · rcases sampleAt_cases (State.accept { readyState 0#32 0#32 with rom := rom }) (wrap (advance 0#32 0#32)) with
      ⟨k, -, he⟩ | ⟨hn, -⟩
    · exact (congrArg State.faults he).trans rfl
    · exact absurd hn (by decide)

theorem witness_SamplesLieInUnitRange : ∃ s t : State, InUnitRange s.memRead ∧ exec .render s = .next t ∧ t.faults = s.faults :=
  silent_render _ (romRead_romOfTable (fun _ => 0#32))

theorem witness_SafeRunSamplesAreTableEntries : ∃ (cmds : List Instr) (s t : State), perform cmds s = .next t ∧ Safe t ∧
    cmds.count .render = 2 := ⟨[.render, .setf0 0#32, .render], readyState 0#32 0x44000000#32, _, rfl, rfl, by decide⟩

theorem witness_PhaseIsContinuous : ∃ s : State, s.ready = true := ⟨readyState 0x42162fc9#32 0x41962fc9#32, rfl⟩

theorem witness_ConfigurationIsIdempotent : (∃ s : State, s.ready = true) ∧ gt32 0x473b8000#32 f32Zero = true :=
  ⟨⟨readyState 0#32 0#32, rfl⟩, by decide⟩

end Sys2Proof.Tests
end

section
/-! The binary32 operations against the rationals (R9, R15): correct rounding, special operands, comparisons, truncation. -/

namespace Sys2Proof.Proofs

open Sys2Proof.Machine

/-! ## Sums and differences -/

theorem roundSum_zero (negZero : Bool) : roundSum negZero 0 = zero negZero := if_pos rfl

/-- The two zeros as bit patterns. -/
theorem zero_eq_ite (neg : Bool) : zero neg = if neg then 0x80000000#32 else 0#32 := by
  cases neg <;> rfl

/-- An exact value of `z` units is zero only for `z = 0`, where `roundSum` returns the zero it was asked for. -/
theorem roundSum_of_value_eq_zero (negZero : Bool) {z : Int} (h : (z : ℚ) / 2 ^ 149 = 0) :
    roundSum negZero z = if negZero then 0x80000000#32 else 0#32 := by
  have hz : z = 0 := by simpa using h
  rw [hz, roundSum_zero, zero_eq_ite]

theorem value_add_value (a b : Word) : value a + value b = ((units a + units b : Int) : ℚ) / 2 ^ 149 := by
  rw [value, value, Int.cast_add, add_div]

theorem value_sub_value (a b : Word) : value a - value b = ((units a - units b : Int) : ℚ) / 2 ^ 149 := by
  rw [value, value, Int.cast_sub, sub_div]

/-- Settles O27: both operands are whole counts of 2^-149, so the sum is one integer, rounded once. -/
theorem sumRoundsToNearest : Obligations.SumRoundsToNearest := by
  intro a b ha hb
  rw [add32_of_finite ha hb, value_add_value]
  exact ⟨roundSum_roundsTo _ _, roundSum_of_value_eq_zero _⟩

/-- Settles O28: as for the sum, with the zero's sign that of `a` plus the negation of `b`. -/
theorem differenceRoundsToNearest : Obligations.DifferenceRoundsToNearest := by
  intro a b ha hb
  rw [sub32_of_finite ha hb, value_sub_value]
  exact ⟨roundSum_roundsTo _ _, roundSum_of_value_eq_zero _⟩

/-! ## Products and quotients -/

/-- The value of a finite pattern as its sign times its size: the form in which `roundTo` takes it. -/
theorem value_eq_sign_mul_natAbs {w : Word} (h : isFinite w = true) :
    value w = (if signBit w then -1 else 1) * ((units w).natAbs / 2 ^ 149 : ℚ) := by
  rw [value_of_finite h, units_of_finite h, natAbs_signed, mul_div_assoc]

/-- The sign factor of an exclusive or is the product of the sign factors. -/
theorem sign_xor_mul (s t : Bool) :
    (if (s ^^ t) then -1 else 1 : ℚ) = (if s then -1 else 1) * (if t then -1 else 1) := by
  cases s <;> cases t <;> norm_num

/-- It is also their quotient, a sign factor being its own inverse. -/
theorem sign_xor_div (s t : Bool) :
    (if (s ^^ t) then -1 else 1 : ℚ) = (if s then -1 else 1) / (if t then -1 else 1) := by
  cases s <;> cases t <;> norm_num

/-- The exact product in the form `mul32` rounds. -/
theorem value_mul_value {a b : Word} (ha : isFinite a = true) (hb : isFinite b = true) :
    value a * value b = (if (signBit a ^^ signBit b) then -1 else 1) *
      ((((units a).natAbs * (units b).natAbs : Nat) : ℚ) / ((2 ^ 149 : Nat) : ℚ)) / 2 ^ 149 := by
  rw [value_eq_sign_mul_natAbs ha, value_eq_sign_mul_natAbs hb, sign_xor_mul]
  push_cast
  ring

/-- The exact quotient in the form `div32` rounds. -/
theorem value_div_value {a b : Word} (ha : isFinite a = true) (hb : isFinite b = true) :
    value a / value b = (if (signBit a ^^ signBit b) then -1 else 1) *
      ((((units a).natAbs * 2 ^ 149 : Nat) : ℚ) / ((units b).natAbs : ℚ)) / 2 ^ 149 := by
  rw [value_eq_sign_mul_natAbs ha, value_eq_sign_mul_natAbs hb, sign_xor_div]
  push_cast
  ring

theorem value_eq_zero_iff (w : Word) : value w = 0 ↔ units w = 0 := by
  simp [value]

/-- Settles O29: the product of the magnitudes is exact in units of 2^-298 and is rounded once. -/
theorem productRoundsToNearest : Obligations.ProductRoundsToNearest := by
  intro a b ha hb
  rw [mul32_of_finite ha hb, value_mul_value ha hb]
  exact ⟨roundTo_roundsTo _ _ _ (Nat.two_pow_pos 149), signBit_roundTo _ _ _⟩

/-- Settles O30: the quotient of the magnitudes is rounded once; the divisor's magnitude is positive. -/
theorem quotientRoundsToNearest : Obligations.QuotientRoundsToNearest := by
  intro a b ha hb hb0
  have hu : units b ≠ 0 := mt (value_eq_zero_iff b).2 hb0
  rw [div32_of_finite ha hb hu, value_div_value ha hb]
  exact ⟨roundTo_roundsTo _ _ _ (Int.natAbs_pos.2 hu), signBit_roundTo _ _ _⟩

/-! ## Special operands -/

theorem isNaN_nanResult (op : Config.FpOp) (a b : Word) : isNaN (nanResult op a b) = true :=
  isNaN_of_unpack (unpack_nanResult op a b)

/-- With a NaN operand the arithmetic takes its NaN result and the comparisons are false: no operation looks further. -/
theorem operations_of_isNaN {a b : Word} (h : (isNaN a || isNaN b) = true) :
    (add32 a b = nanResult .add a b ∧ sub32 a b = nanResult .sub a b ∧ mul32 a b = nanResult .mul a b ∧
      div32 a b = nanResult .div a b) ∧ gt32 a b = false ∧ ge32 a b = false := by
  rw [Bool.or_eq_true] at h
  unfold add32 sub32 mul32 div32 gt32 ge32
  rcases h with ha | hb
  · rw [unpack_of_isNaN ha]
    exact ⟨⟨rfl, rfl, rfl, rfl⟩, rfl, rfl⟩
  · rw [unpack_of_isNaN hb]
    cases unpack a <;> exact ⟨⟨rfl, rfl, rfl, rfl⟩, rfl, rfl⟩

/-- The operations that IEEE 754 calls invalid take the NaN result. -/
theorem isNaN_of_invalid (s t : Bool) :
    isNaN (div32 (infinity s) (infinity t)) = true ∧ isNaN (div32 (zero s) (zero t)) = true ∧
      isNaN (mul32 (infinity s) (zero t)) = true ∧ isNaN (mul32 (zero s) (infinity t)) = true ∧
      isNaN (sub32 (infinity s) (infinity s)) = true ∧ isNaN (add32 (infinity s) (infinity (!s))) = true := by
  simp [add32, sub32, mul32, div32, unpack_infinity, unpack_zero, isNaN_nanResult]

/-- A finite pattern is a zero exactly when its magnitude is 0. -/
theorem value_eq_zero_iff_magOf {w : Word} (h : isFinite w = true) : value w = 0 ↔ magOf (lowBits w) = 0 := by
  rw [value_eq_zero_iff, units_of_finite h, ← Int.natAbs_eq_zero, natAbs_signed]

/-- An infinity beside a finite operand decides a sum, a difference and a quotient. -/
theorem infinity_absorbs (s : Bool) {a : Word} (h : isFinite a = true) :
    add32 (infinity s) a = infinity s ∧ add32 a (infinity s) = infinity s ∧ sub32 (infinity s) a = infinity s ∧
      sub32 a (infinity s) = infinity (!s) ∧ div32 (infinity s) a = infinity (s ^^ signBit a) ∧
      div32 a (infinity s) = zero (s ^^ signBit a) := by
  simp [add32, sub32, div32, unpack_infinity, unpack_of_finite h, Bool.xor_comm]

/-- A non-zero number times an infinity, and over a zero, is an infinity with the product of the signs. -/
theorem infinity_of_nonzero (s : Bool) {a : Word} (h : isFinite a = true) (h0 : value a ≠ 0) :
    mul32 (infinity s) a = infinity (s ^^ signBit a) ∧ mul32 a (infinity s) = infinity (s ^^ signBit a) ∧
      div32 a (zero s) = infinity (s ^^ signBit a) := by
  have hm : magOf (lowBits a) ≠ 0 := mt (value_eq_zero_iff_magOf h).2 h0
  simp [mul32, div32, unpack_infinity, unpack_zero, unpack_of_finite h, hm, Bool.xor_comm]

/-- Settles O31: a NaN operand, an invalid operation, one infinity beside a finite operand, a non-zero number over zero. -/
theorem specialOperands : Obligations.SpecialOperands := by
  refine ⟨fun a b h => ?_, isNaN_of_invalid, fun s a h => ?_⟩
  · obtain ⟨⟨hadd, hsub, hmul, hdiv⟩, -⟩ := operations_of_isNaN h
    rw [hadd, hsub, hmul, hdiv]
    exact ⟨isNaN_nanResult .., isNaN_nanResult .., isNaN_nanResult .., isNaN_nanResult ..⟩
  · obtain ⟨h1, h2, h3, h4, h5, h6⟩ := infinity_absorbs s h
    exact ⟨h1, h2, h3, h4, h5, h6, infinity_of_nonzero s h⟩

/-! ## Comparisons -/

theorem gt32_iff_value_lt {a b : Word} (ha : isFinite a = true) (hb : isFinite b = true) :
    gt32 a b = true ↔ value b < value a := by
  rw [gt32_of_finite ha hb, decide_eq_true_iff, value_lt_iff]

theorem ge32_iff_value_le {a b : Word} (ha : isFinite a = true) (hb : isFinite b = true) :
    ge32 a b = true ↔ value b ≤ value a := by
  rw [ge32_of_finite ha hb, decide_eq_true_iff, value_le_iff]

/-- Against a finite pattern an infinity's sign alone decides. -/
theorem compare_infinity (s : Bool) {a : Word} (h : isFinite a = true) :
    gt32 (infinity s) a = !s ∧ ge32 (infinity s) a = !s ∧ gt32 a (infinity s) = s ∧ ge32 a (infinity s) = s := by
  simp [gt32, ge32, unpack_infinity, unpack_of_finite h]

/-- Settles O32: units order finite patterns as values do; a NaN or an infinity decides by itself. -/
theorem comparisonsOrderValues : Obligations.ComparisonsOrderValues := by
  refine ⟨fun a b ha hb => ⟨gt32_iff_value_lt ha hb, ge32_iff_value_le ha hb⟩,
    fun a b h => (operations_of_isNaN h).2, fun a h => ?_⟩
  obtain ⟨gtPos, gePos, gtOfPos, geOfPos⟩ := compare_infinity false h
  obtain ⟨gtNeg, geNeg, gtOfNeg, geOfNeg⟩ := compare_infinity true h
  exact ⟨gtPos, gePos, gtOfNeg, geOfNeg, gtOfPos, geOfPos, gtNeg, geNeg⟩

/-! ## Truncation -/

/-- The floor of a value is the quotient of its units rounded down. -/
theorem floor_value (a : Word) : ⌊value a⌋ = units a / 2 ^ 149 := by
  have h := Rat.floor_intCast_div_natCast (units a) (2 ^ 149)
  push_cast at h
  exact h

theorem ceil_value (a : Word) : ⌈value a⌉ = -(-units a / 2 ^ 149) := by
  have h := Rat.ceil_intCast_div_natCast (units a) (2 ^ 149)
  push_cast at h
  exact h

/-- Settles O33: the division of `trunc` drops the fraction, which goes down from above zero and up from below. -/
theorem truncIsTowardZero : Obligations.TruncIsTowardZero := by
  intro a _
  constructor
  · intro h
    have hu : 0 ≤ units a := by simpa using (int_le_value a 0).1 (by simpa using h)
    rw [floor_value, trunc, Int.tdiv_eq_ediv_of_nonneg hu]
  · intro h
    have hu : units a ≤ 0 := by simpa using (value_le_int a 0).1 (by simpa using h)
    rw [ceil_value, trunc, ← Int.tdiv_eq_ediv_of_nonneg (Int.neg_nonneg_of_nonpos hu), Int.neg_tdiv, neg_neg]

end Sys2Proof.Proofs
end

section
/-! The state: what a step and a command can do, what they leave unchanged, what they read, and what every step keeps
(R23, R28, R58, R132, R150, R156). -/

namespace Sys2Proof.Proofs

open Sys2Proof.Machine

/-! ## A step, and the command next at the port -/

theorem step_of_command {s : State} {cw : CommandWord} {rest : List PortEvent} (h : s.port = .command cw :: rest) :
    step s = exec (decode cw) { s with port := rest } := by
  rw [step, h]

/-- A step holds the state, takes the reset event, or performs the next command (R167, R180, R58). -/
theorem step_cases {s t : State} (h : step s = .next t) :
    t = s ∨ (∃ rest, t = State.resetEvent { s with port := rest }) ∨
      ∃ cw rest, exec (decode cw) { s with port := rest } = .next t := by
  unfold step at h
  split at h
  case h_1 => exact .inl (Host.Outcome.next.inj h).symm
  case h_2 rest _ => exact .inr (.inl ⟨rest, (Host.Outcome.next.inj h).symm⟩)
  case h_3 cw rest _ => exact .inr (.inr ⟨cw, rest, h⟩)

/-- A number of the host's table reads as an instruction only by being a command word that decodes to it (R70, R76). -/
theorem decode_of_decodeTableWord {nbits w : Nat} {i : Instr} (h : decodeTableWord nbits w = some i) :
    decode (BitVec.ofNat 66 (w % 2 ^ nbits)) = i := by
  unfold decodeTableWord decodeNumber at h
  split at h
  · exact Option.some.inj h
  · cases h

/-- Settles O5: the port holds the command word first, and taking it gives the state back. -/
theorem stepRunsDecodedCommand : Obligations.StepRunsDecodedCommand := by
  refine ⟨fun s cw rest h => step_of_command h, fun s nbits w i h => ?_⟩
  rw [step_of_command (withFetchWord_port s nbits w), decode_of_decodeTableWord h]
  rfl

/-- Settles O8: each field of `State.reset` is the value named, and its port is empty. -/
theorem resetStateValues : Obligations.ResetStateValues :=
  ⟨rfl, reset_read, rfl, rfl, rfl, rfl⟩

/-! ## A command -/

/-- `Performed s i t`: the command `i`, performed in `s`, leaves `t`. One constructor for each way a command can end, with
the test that decides it. -/
inductive Performed (s : State) : Instr → State → Prop where
  | initAccepted (fs f0 : Word) (hfs : gt32 fs f32Zero = true) : Performed s (.init fs f0)
      ((((s.accept.write .fs fs).write .inc (incOf f0 fs)).write .idx f32Zero).makeReady)
  | initRejected (fs f0 : Word) (hfs : gt32 fs f32Zero = false) : Performed s (.init fs f0) (s.accept.discard.raise .cfgFs)
  | setf0Ready (f0 : Word) (hr : s.ready = true) : Performed s (.setf0 f0) (s.accept.write .inc (incOf f0 s.fs))
  | setf0NotReady (f0 : Word) (hr : s.ready = false) : Performed s (.setf0 f0) (s.accept.raise .notReady)
  | renderEntry (k : Fin 2048) (hr : s.ready = true) (hk : tableIndex (wrap (advance s.idx s.inc)) = some k) :
      Performed s .render ((s.accept.write .idx (wrap (advance s.idx s.inc))).respond (romRead s.rom k))
  | renderOutOfTable (hr : s.ready = true) (hk : tableIndex (wrap (advance s.idx s.inc)) = none) :
      Performed s .render ((s.accept.write .idx (wrap (advance s.idx s.inc))).raise .idxOob).respondUnspecified
  | renderNotReady (hr : s.ready = false) : Performed s .render (s.accept.raise .notReady).respondUnspecified
  | reserved : Performed s .reserved (s.accept.raise .illegalCmd)

/-- The tests of each command cover every state. -/
theorem exists_performed (i : Instr) (s : State) : ∃ t, Performed s i t := by
  cases i with
  | init fs f0 =>
    cases hfs : gt32 fs f32Zero with
    | true => exact ⟨_, .initAccepted fs f0 hfs⟩
    | false => exact ⟨_, .initRejected fs f0 hfs⟩
  | setf0 f0 =>
    cases hr : s.ready with
    | true => exact ⟨_, .setf0Ready f0 hr⟩
    | false => exact ⟨_, .setf0NotReady f0 hr⟩
  | render =>
    cases hr : s.ready with
    | true =>
      cases hk : tableIndex (wrap (advance s.idx s.inc)) with
      | some k => exact ⟨_, .renderEntry k hr hk⟩
      | none => exact ⟨_, .renderOutOfTable hr hk⟩
    | false => exact ⟨_, .renderNotReady hr⟩
  | reserved => exact ⟨_, .reserved⟩

theorem sampleAt_of_some {p : Word} {k : Fin 2048} (h : tableIndex p = some k) (s : State) :
    s.sampleAt p = (s.write .idx p).respond (romRead s.rom k) := by
  rw [State.sampleAt, h]
  rfl

theorem sampleAt_of_none {p : Word} (h : tableIndex p = none) (s : State) :
    s.sampleAt p = ((s.write .idx p).raise .idxOob).respondUnspecified := by
  rw [State.sampleAt, h]

/-- What is listed is what `exec` answers. -/
theorem Performed.exec_eq {s t : State} {i : Instr} (h : Performed s i t) : exec i s = .next t := by
  cases h with
  | initAccepted fs f0 hfs => exact if_pos hfs
  | initRejected fs f0 hfs => exact if_neg (by rw [hfs]; exact Bool.false_ne_true)
  | setf0Ready f0 hr => exact execSetf0_of_ready f0 hr
  | setf0NotReady f0 hr => exact execSetf0_of_not_ready f0 hr
  | renderEntry k hr hk => exact (execRender_of_ready hr).trans (congrArg _ (sampleAt_of_some hk s.accept))
  | renderOutOfTable hr hk => exact (execRender_of_ready hr).trans (congrArg _ (sampleAt_of_none hk s.accept))
  | renderNotReady hr => exact execRender_of_not_ready hr
  | reserved => rfl

/-- `exec` answers a next state exactly as listed. -/
theorem exec_eq_next_iff {i : Instr} {s t : State} : exec i s = .next t ↔ Performed s i t := by
  refine ⟨fun h => ?_, Performed.exec_eq⟩
  obtain ⟨u, hu⟩ := exists_performed i s
  obtain rfl : u = t := Host.Outcome.next.inj (hu.exec_eq.symm.trans h)
  exact hu

/-- Settles O19: in each way a command can end, the operations it is made of leave these fields as they were. -/
theorem commandFrames : Obligations.CommandFrames := by
  intro i s t h
  cases exec_eq_next_iff.1 h <;> simp [State.memRead]

/-- Settles O22: the tests and the words written in each way to end name none of the fields changed beforehand. -/
theorem commandsReadOnlyTheirRegisters : Obligations.CommandsReadOnlyTheirRegisters := by
  refine ⟨fun s v => ?_, fun f0 s v table => ?_⟩
  · obtain ⟨t, ht⟩ := exists_performed .render s
    refine ⟨t, ht.exec_eq, ?_⟩
    cases ht with
    | renderEntry k hr hk => exact (Performed.renderEntry (s := { s with fs := v }) k hr hk).exec_eq
    | renderOutOfTable hr hk => exact (Performed.renderOutOfTable (s := { s with fs := v }) hr hk).exec_eq
    | renderNotReady hr => exact (Performed.renderNotReady (s := { s with fs := v }) hr).exec_eq
  · obtain ⟨t, ht⟩ := exists_performed (.setf0 f0) s
    refine ⟨t, ht.exec_eq, ?_⟩
    cases ht with
    | setf0Ready _ hr => exact (Performed.setf0Ready (s := { s with idx := v, rom := table }) f0 hr).exec_eq
    | setf0NotReady _ hr => exact (Performed.setf0NotReady (s := { s with idx := v, rom := table }) f0 hr).exec_eq

/-! ## No command writes `-0.0` to IDX (R132) -/

/-- A rounded sum is `-0.0` only for an exact zero sum that was to have that sign: a whole number of units rounds to none. -/
theorem roundSum_ne_negZero {negZero : Bool} {z : Int} (h : z = 0 → negZero = false) :
    roundSum negZero z ≠ 0x80000000#32 := by
  unfold roundSum
  split
  case isTrue hz =>
    rw [h hz]
    decide
  case isFalse hz =>
    have hpos : 1 ≤ roundBits z.natAbs 1 := le_roundBits Nat.one_pos (by decide) (by
      rw [show magOf 1 = 1 from rfl]
      omega)
    intro he
    have hzero : roundBits z.natAbs 1 = 0 := by
      rw [← lowBits_roundTo (decide (z < 0)), he]
      decide
    omega

theorem units_nonpos_of_signBit {w : Word} (hw : isFinite w = true) (h : signBit w = true) : units w ≤ 0 := by
  rw [units_of_finite hw, h]
  exact Int.neg_nonpos_of_nonneg (Int.natCast_nonneg _)

/-- The one pattern with a sign and no units is `-0.0`. -/
theorem eq_negZero {w : Word} (hw : isFinite w = true) (hs : signBit w = true) (hu : units w = 0) : w = 0x80000000#32 := by
  have hm : magOf (lowBits w) = 0 := by
    have h := natAbs_signed (signBit w) (magOf (lowBits w))
    rw [← units_of_finite hw, hu] at h
    exact h.symm
  have hlow : lowBits w = 0 := by
    by_contra hne
    have h0 : 0 < magOf (lowBits w) := magOf_lt (a := 0) ((isFinite_iff w).1 hw) (by omega)
    omega
  rw [← withSign_lowBits w, hs, hlow]
  rfl

theorem nanResult_ne_negZero (op : Config.FpOp) (a b : Word) : nanResult op a b ≠ 0x80000000#32 := by
  intro h
  have hnan := isNaN_nanResult op a b
  rw [h] at hnan
  exact absurd hnan (by decide)

theorem infinity_ne_negZero (neg : Bool) : infinity neg ≠ 0x80000000#32 := by
  cases neg <;> decide

/-- A sum is `-0.0` only for two operands `-0.0`. -/
theorem add32_ne_negZero {a b : Word} (ha : a ≠ 0x80000000#32) : add32 a b ≠ 0x80000000#32 := by
  by_cases hnan : (isNaN a || isNaN b) = true
  · obtain ⟨⟨hadd, -⟩, -⟩ := operations_of_isNaN hnan
    rw [hadd]
    exact nanResult_ne_negZero _ _ _
  obtain ⟨hna, hnb⟩ : ¬isNaN a = true ∧ ¬isNaN b = true := by simpa using hnan
  obtain hfa | ⟨s, rfl⟩ := (kinds a).imp_right (Or.resolve_right · hna) <;>
    obtain hfb | ⟨t, rfl⟩ := (kinds b).imp_right (Or.resolve_right · hnb)
  · rw [add32_of_finite hfa hfb]
    refine roundSum_ne_negZero fun hz => ?_
    by_contra hneg
    obtain ⟨hsa, hsb⟩ : signBit a = true ∧ signBit b = true := by simpa using hneg
    have := units_nonpos_of_signBit hfa hsa
    have := units_nonpos_of_signBit hfb hsb
    exact ha (eq_negZero hfa hsa (by omega))
  · obtain ⟨-, hadd, -⟩ := infinity_absorbs t hfa
    rw [hadd]
    exact infinity_ne_negZero t
  · obtain ⟨hadd, -⟩ := infinity_absorbs s hfb
    rw [hadd]
    exact infinity_ne_negZero s
  · rw [add32, unpack_infinity, unpack_infinity]
    dsimp only
    split
    · exact infinity_ne_negZero s
    · exact nanResult_ne_negZero _ _ _

/-- The wrap subtracts 2048 from a positive number, and so makes no `-0.0`. -/
theorem wrap_ne_negZero {p : Word} (hp : p ≠ 0x80000000#32) : wrap p ≠ 0x80000000#32 := by
  unfold wrap
  split
  case isFalse => exact hp
  case isTrue hge =>
    have hN : isFinite f32N = true := by decide
    obtain hf | ⟨neg, rfl⟩ | hnan := kinds p
    · rw [sub32_of_finite hf hN]
      refine roundSum_ne_negZero fun hz => ?_
      have hs : ¬signBit p = true := fun hs => by
        have := units_nonpos_of_signBit hf hs
        have : 0 < units f32N := by decide
        omega
      rw [Bool.not_eq_true] at hs
      rw [hs, Bool.false_and]
    · obtain ⟨-, -, hsub, -⟩ := infinity_absorbs neg hN
      rw [hsub]
      exact infinity_ne_negZero neg
    · obtain ⟨-, -, hge'⟩ := operations_of_isNaN (a := p) (b := f32N) (by rw [hnan, Bool.true_or])
      exact absurd (hge'.symm.trans hge) Bool.false_ne_true

/-! ## The fault record (R150, R156) -/

/-- No fault: the record is kept while the count goes on. -/
theorem faultsOk_of_accept {s t : State} (h : FaultsOk s) (hf : t.faults = s.faults) (hc : t.commands = s.commands + 1) :
    FaultsOk t := by
  obtain ⟨hord, hpw⟩ := h
  rw [FaultsOk, hf, hc]
  exact ⟨fun e he => (hord e he).imp_right Nat.le_succ_of_le, hpw⟩

/-- One fault: its ordinal is the new count, above every ordinal recorded before. -/
theorem faultsOk_of_raise {s t : State} {r : Fault} (h : FaultsOk s) (hf : t.faults = s.faults ++ [⟨r, s.commands + 1⟩])
    (hc : t.commands = s.commands + 1) : FaultsOk t := by
  obtain ⟨hord, hpw⟩ := h
  rw [FaultsOk, hf, hc]
  constructor
  · intro e he
    rcases List.mem_append.1 he with he | he
    · exact (hord e he).imp_right Nat.le_succ_of_le
    · rw [List.mem_singleton.1 he]
      exact ⟨Nat.succ_pos _, le_rfl⟩
  · refine List.pairwise_append.2 ⟨hpw, List.pairwise_singleton .., fun x hx y hy => ?_⟩
    rw [List.mem_singleton.1 hy]
    exact Nat.lt_succ_of_le (hord x hx).2

/-! ## The invariant -/

/-- Settles O23: nothing is listed in the table or recorded, READY is 0, and IDX stores the unwritten word. -/
theorem resetMeetsInvariant : Obligations.ResetMeetsInvariant :=
  ⟨romWf_reset, Bool.false_ne_true.elim, by decide, List.forall_mem_nil _, .nil⟩

/-- The reset event leaves the fields of the reset state, but for the table, which it keeps. -/
theorem inv_resetEvent {s : State} (h : s.Inv) : s.resetEvent.Inv := by
  obtain ⟨hrom, -⟩ := h
  obtain ⟨-, hready, hidx, hfaults⟩ := resetMeetsInvariant
  exact ⟨hrom, hready, hidx, hfaults⟩

/-- Every command keeps the invariant, in each way it can end. -/
theorem Performed.inv {s t : State} {i : Instr} (h : Performed s i t) (hs : s.Inv) : t.Inv := by
  obtain ⟨hrom, hfs, hidx, hfaults⟩ := hs
  have hphase : wrap (advance s.idx s.inc) ≠ 0x80000000#32 := wrap_ne_negZero (add32_ne_negZero hidx)
  cases h with
  | initAccepted fs f0 h => exact ⟨hrom, fun _ => h, (by decide : f32Zero ≠ 0x80000000#32), faultsOk_of_accept hfaults rfl rfl⟩
  | initRejected fs f0 h =>
    exact ⟨hrom, Bool.false_ne_true.elim, (by decide : unwrittenWord ≠ 0x80000000#32), faultsOk_of_raise hfaults rfl rfl⟩
  | setf0Ready f0 hr => exact ⟨hrom, hfs, hidx, faultsOk_of_accept hfaults rfl rfl⟩
  | setf0NotReady f0 hr => exact ⟨hrom, hfs, hidx, faultsOk_of_raise hfaults rfl rfl⟩
  | renderEntry k hr hk => exact ⟨hrom, hfs, hphase, faultsOk_of_accept hfaults rfl rfl⟩
  | renderOutOfTable hr hk => exact ⟨hrom, hfs, hphase, faultsOk_of_raise hfaults rfl rfl⟩
  | renderNotReady hr => exact ⟨hrom, hfs, hidx, faultsOk_of_raise hfaults rfl rfl⟩
  | reserved => exact ⟨hrom, hfs, hidx, faultsOk_of_raise hfaults rfl rfl⟩

/-- Settles O24: a step holds the state, resets it or performs a command, and the port is no part of the invariant. -/
theorem stepKeepsInvariant : Obligations.StepKeepsInvariant := by
  intro s t hs h
  obtain rfl | ⟨rest, rfl⟩ | ⟨cw, rest, h⟩ := step_cases h
  · exact hs
  · exact inv_resetEvent (s := { s with port := rest }) hs
  · exact (exec_eq_next_iff.1 h).inv (s := { s with port := rest }) hs

end Sys2Proof.Proofs
end

section
/-! The reference table against the sine (R31, R32): its symmetries reduce a claim to the 513 listed words of the first
quadrant; a check of those against a Taylor polynomial, and the polynomial's distance from the sine, give the rest. -/

namespace Sys2Proof.Proofs

open Sys2Proof.Machine

/-! ## The sign flipped -/

theorem signBit_flipSign (w : Word) : signBit (flipSign w) = !signBit w := by
  rw [signBit, signBit, flipSign, BitVec.msb_xor, show (0x80000000#32).msb = true by decide, Bool.xor_true]

theorem lowBits_flipSign (w : Word) : lowBits (flipSign w) = lowBits w := by
  rw [lowBits, lowBits, flipSign, BitVec.toNat_xor, Nat.xor_mod_two_pow,
    show (0x80000000#32).toNat % 2 ^ 31 = 0 by decide, Nat.xor_zero]

theorem isFinite_flipSign (w : Word) : isFinite (flipSign w) = isFinite w := by
  rw [Bool.eq_iff_iff, isFinite_iff, isFinite_iff, lowBits_flipSign]

theorem value_flipSign {w : Word} (h : isFinite w = true) : value (flipSign w) = -value w := by
  rw [value_of_finite h, value_of_finite ((isFinite_flipSign w).trans h), signBit_flipSign, lowBits_flipSign]
  cases signBit w <;> simp [neg_div]

/-! ## The table from its first quadrant -/

/-- The positive half wave, indices 0 to 1024: the quadrant, and the quadrant read backwards. -/
def halfWave (m : Nat) : Word := quadrantEntry (min m (1024 - m))

theorem halfWave_reflect {m : Nat} (h : m ≤ 1024) : halfWave (1024 - m) = halfWave m := by
  rw [halfWave, halfWave, Nat.sub_sub_self h, min_comm]

theorem sineRomRef_of_le {k : Fin 2048} (h : k.val ≤ 1024) : sineRomRef k = halfWave k.val := by
  unfold sineRomRef halfWave
  split
  · rw [min_eq_left (by omega)]
  · rw [min_eq_right (by omega)]

theorem sineRomRef_of_gt {k : Fin 2048} (h : 1024 < k.val) : sineRomRef k = flipSign (halfWave (k.val - 1024)) := by
  unfold sineRomRef halfWave
  rw [if_neg (by omega), if_neg (by omega)]
  split
  · rw [min_eq_left (by omega)]
  · rw [min_eq_right (by omega), show 1024 - (k.val - 1024) = 2048 - k.val by omega]

theorem quadrant_length : quadrant.length = 513 := by decide +kernel

/-- What holds of each listed word with its index holds of each entry of the quadrant. -/
theorem quadrantEntry_of_listed (P : Word → Nat → Prop) (h : ∀ p ∈ quadrant.zipIdx, P (BitVec.ofNat 32 p.1) p.2)
    {j : Nat} (hj : j ≤ 512) : P (quadrantEntry j) j := by
  have hlt : j < quadrant.length := by
    rw [quadrant_length]
    omega
  rw [quadrantEntry, List.getD_eq_getElem _ _ hlt]
  exact h (quadrant[j], j) (List.mk_mem_zipIdx_iff_getElem?.2 (List.getElem?_eq_getElem hlt))

/-! ## The range of the entries (P2 of R31) -/

theorem quadrant_in_range : ∀ p ∈ quadrant.zipIdx, isFinite (BitVec.ofNat 32 p.1) = true ∧
    0 ≤ value (BitVec.ofNat 32 p.1) ∧ value (BitVec.ofNat 32 p.1) ≤ 1 := by
  decide +kernel

theorem halfWave_in_range (m : Nat) : isFinite (halfWave m) = true ∧ 0 ≤ value (halfWave m) ∧ value (halfWave m) ≤ 1 :=
  quadrantEntry_of_listed (fun w _ => isFinite w = true ∧ 0 ≤ value w ∧ value w ≤ 1) quadrant_in_range (by omega)

theorem sineRomRef_inUnitRange : InUnitRange sineRomRef := by
  intro k
  rcases le_or_gt k.val 1024 with h | h
  · obtain ⟨hfin, hpos, hle⟩ := halfWave_in_range k.val
    rw [sineRomRef_of_le h]
    exact ⟨hfin, by linarith, hle⟩
  · obtain ⟨hfin, hpos, hle⟩ := halfWave_in_range (k.val - 1024)
    rw [sineRomRef_of_gt h, isFinite_flipSign, value_flipSign hfin]
    exact ⟨hfin, by linarith, by linarith⟩

/-! ## The symmetries -/

theorem sineRomRef_quarterTurn {k : Fin 2048} (hk : k.val < 1024) : sineRomRef (1024 - k) = sineRomRef k := by
  have hval : (1024 - k).val = 1024 - k.val := Fin.sub_val_of_le (Fin.le_def.2 hk.le)
  rw [sineRomRef_of_le (by omega), sineRomRef_of_le hk.le, hval, halfWave_reflect hk.le]

theorem sineRomRef_halfTurn {k : Fin 2048} (hpos : 0 < k.val) (hk : k.val < 1024) :
    sineRomRef (1024 + k) = flipSign (sineRomRef k) := by
  have hval : (1024 + k).val = 1024 + k.val := Fin.val_add_eq_of_add_lt (by
    rw [show (1024 : Fin 2048).val = 1024 from rfl]
    omega)
  rw [sineRomRef_of_gt (by omega), sineRomRef_of_le hk.le, hval, Nat.add_sub_cancel_left]

/-- Settles O58: the range and the symmetries come from the half wave; the named entries are read off the list. -/
theorem referenceTableShape : Obligations.ReferenceTableShape := by
  have hnamed : sineRomRef 0 = 0#32 ∧ sineRomRef 512 = 0x3f800000#32 ∧ sineRomRef 1024 = 0#32 ∧
      sineRomRef 1536 = 0xbf800000#32 ∧ sineRomRef 18 = 0x3d621469#32 ∧ sineRomRef 2047 = 0xbb490fc6#32 := by
    decide +kernel
  obtain ⟨h0, h512, h1024, h1536, h18, h2047⟩ := hnamed
  refine ⟨sineRomRef_inUnitRange, h0, h512, h1024, h1536, h18, h2047, fun k hpos hk => ⟨?_, ?_⟩⟩
  · rw [sineRomRef_quarterTurn hk]
  · rw [sineRomRef_halfTurn hpos hk, value_flipSign (sineRomRef_inUnitRange k).1]

/-! ## The Taylor polynomial -/

/-- The Taylor polynomial of the sine about 0, up to the eleventh power. -/
def sineTaylor {K : Type} [Field K] (x : K) : K :=
  x - x ^ 3 / 6 + x ^ 5 / 120 - x ^ 7 / 5040 + x ^ 9 / 362880 - x ^ 11 / 39916800

/-- It is the imaginary part of the exponential's polynomial at `i * x`. -/
theorem im_exp_taylor (x : ℝ) :
    (∑ m ∈ Finset.range 12, (x * Complex.I) ^ m / (m.factorial : ℂ)).im = sineTaylor x := by
  have hI : ∀ k : ℕ, Complex.I ^ (k + 2) = -Complex.I ^ k := fun k => by rw [pow_add, Complex.I_sq, mul_neg_one]
  simp [Finset.sum_range_succ, mul_pow, hI, sineTaylor, Nat.factorial, ← Complex.ofReal_pow, sub_eq_add_neg, neg_div]

/-- On the first quadrant the polynomial is within 1e-6 of the sine, by the bound on the exponential's remainder. -/
theorem abs_sineTaylor_sub_sin_le {x : ℝ} (h0 : 0 ≤ x) (h1 : x ≤ 1.5708) : |sineTaylor x - Real.sin x| ≤ 1 / 10 ^ 6 := by
  have hn : ‖(x * Complex.I : ℂ)‖ = x := by simp [abs_of_nonneg h0]
  have hrem := Complex.exp_bound' (x := x * Complex.I) (n := 12) (by rw [hn]; norm_num; linarith)
  calc |sineTaylor x - Real.sin x|
      = |(Complex.exp (x * Complex.I) - ∑ m ∈ Finset.range 12, (x * Complex.I) ^ m / (m.factorial : ℂ)).im| := by
        rw [Complex.sub_im, Complex.exp_ofReal_mul_I_im, im_exp_taylor, abs_sub_comm]
    _ ≤ ‖(x * Complex.I : ℂ)‖ ^ 12 / (Nat.factorial 12 : ℝ) * 2 := (Complex.abs_im_le_norm _).trans hrem
    _ ≤ 1.5708 ^ 12 / (Nat.factorial 12 : ℝ) * 2 := by rw [hn]; gcongr
    _ ≤ 1 / 10 ^ 6 := by norm_num [Nat.factorial]

theorem sineTaylor_cast (x : ℚ) : ((sineTaylor x : ℚ) : ℝ) = sineTaylor (x : ℝ) := by
  simp [sineTaylor]

/-! ## The distance from the sine (P1 of R31) -/

/-- The angle of index `j` of 2048 in a turn, with 3.1416 for pi. -/
def angleApprox (j : Nat) : ℚ := 3.1416 * j / 1024

theorem angleApprox_cast (j : Nat) : ((angleApprox j : ℚ) : ℝ) = 3.1416 * j / 1024 := by
  push_cast [angleApprox]
  ring

/-- The 513 listed words, each against the polynomial at its angle. -/
theorem quadrant_near_sineTaylor : ∀ p ∈ quadrant.zipIdx,
    |value (BitVec.ofNat 32 p.1) - sineTaylor (angleApprox p.2)| ≤ 4 / 10 ^ 6 := by
  decide +kernel

/-- The stand-in for pi moves the angle of an index in the first quadrant by at most 4e-6. -/
theorem abs_angleApprox_sub_le {j : Nat} (h : j ≤ 512) :
    |((angleApprox j : ℚ) : ℝ) - Real.pi * j / 1024| ≤ 4 / 10 ^ 6 := by
  have hj : (j : ℝ) ≤ 512 := by exact_mod_cast h
  have hpi : |3.1416 - Real.pi| ≤ 8 / 10 ^ 6 :=
    abs_le.2 ⟨by linarith [Real.pi_lt_d4], by linarith [Real.pi_gt_d6]⟩
  calc |((angleApprox j : ℚ) : ℝ) - Real.pi * j / 1024| = |(3.1416 - Real.pi) * (j / 1024)| := by
        rw [angleApprox_cast]
        ring_nf
    _ = |3.1416 - Real.pi| * (j / 1024) := by rw [abs_mul, abs_of_nonneg (by positivity : (0 : ℝ) ≤ j / 1024)]
    _ ≤ 8 / 10 ^ 6 * (512 / 1024) := by gcongr
    _ = 4 / 10 ^ 6 := by norm_num

theorem quadrantEntry_near_sineTaylor {j : Nat} (h : j ≤ 512) :
    |((value (quadrantEntry j) : ℚ) : ℝ) - sineTaylor (angleApprox j : ℝ)| ≤ 4 / 10 ^ 6 := by
  have hq := (Rat.cast_le (K := ℝ)).2 (quadrantEntry_of_listed
    (fun w j => |value w - sineTaylor (angleApprox j)| ≤ 4 / 10 ^ 6) quadrant_near_sineTaylor h)
  push_cast [sineTaylor_cast] at hq
  exact hq

/-- The table's distance from the polynomial, the polynomial's from the sine, and the sine's change with the angle. -/
theorem quadrantEntry_near_sine {j : Nat} (h : j ≤ 512) :
    |((value (quadrantEntry j) : ℚ) : ℝ) - Real.sin (Real.pi * j / 1024)| ≤ 1 / 100000 := by
  have hj : (j : ℝ) ≤ 512 := by exact_mod_cast h
  have htable := quadrantEntry_near_sineTaylor h
  have htaylor : |sineTaylor (angleApprox j : ℝ) - Real.sin (angleApprox j)| ≤ 1 / 10 ^ 6 := by
    rw [angleApprox_cast]
    exact abs_sineTaylor_sub_sin_le (by positivity) (by linarith)
  have hangle := (Real.abs_sin_sub_sin_le _ _).trans (abs_angleApprox_sub_le h)
  calc _ ≤ _ := abs_sub_le _ (sineTaylor (angleApprox j : ℝ)) _
    _ ≤ _ := add_le_add htable (abs_sub_le _ (Real.sin (angleApprox j)) _)
    _ ≤ 1 / 100000 := by linarith

/-- Reading the quadrant backwards is reflecting the angle in the quarter turn. -/
theorem halfWave_near_sine {m : Nat} (h : m ≤ 1024) :
    |((value (halfWave m) : ℚ) : ℝ) - Real.sin (Real.pi * m / 1024)| ≤ 1 / 100000 := by
  rcases le_total m (1024 - m) with hm | hm
  · rw [halfWave, min_eq_left hm]
    exact quadrantEntry_near_sine (by omega)
  · have hangle : Real.pi * m / 1024 = Real.pi - Real.pi * ((1024 - m : Nat) : ℝ) / 1024 := by
      push_cast [Nat.cast_sub h]
      ring
    rw [halfWave, min_eq_right hm, hangle, Real.sin_pi_sub]
    exact quadrantEntry_near_sine (by omega)

/-- Settles O57: the second half of the table and of the sine are their first halves with the sign flipped. -/
theorem referenceTableIsNearSine : Obligations.ReferenceTableIsNearSine := by
  intro k
  rcases le_or_gt k.val 1024 with h | h
  · rw [sineRomRef_of_le h, show 2 * Real.pi * (k.val : ℝ) / 2048 = Real.pi * k.val / 1024 by ring]
    exact halfWave_near_sine h
  · have hangle : 2 * Real.pi * (k.val : ℝ) / 2048 = Real.pi * ((k.val - 1024 : Nat) : ℝ) / 1024 + Real.pi := by
      push_cast [Nat.cast_sub h.le]
      ring
    rw [sineRomRef_of_gt h, value_flipSign (halfWave_in_range _).1, hangle, Real.sin_add_pi, Rat.cast_neg,
      neg_sub_neg, abs_sub_comm]
    exact halfWave_near_sine (by omega)

end Sys2Proof.Proofs
end

section
/-! Commands in sequence (R54, R58, R59): the port is taken one event at a time, a configuration repeated changes nothing,
and two hosts that share an oscillator keep its phase in range (R106, R127). -/

namespace Sys2Proof.Proofs

open Sys2Proof.Machine

/-! ## A phase and an increment in range keep the phase in range (R127) -/

/-- Twice the greatest phase is a pattern, and so the greatest sum that two phases round to. -/
theorem value_greatest_sum : value 0x44ffffff#32 + value 0x44ffffff#32 = value 0x457fffff#32 := by
  decide +kernel

/-- That pattern, wrapped, is a phase below 2048. -/
theorem value_greatest_wrapped : value 0x457fffff#32 - value f32N = value 0x44fffffe#32 ∧ value 0x44fffffe#32 < 2048 := by
  decide +kernel

theorem value_f32Zero : value f32Zero = 0 := by
  decide +kernel

theorem value_f32N : value f32N = 2048 := by
  decide +kernel

/-- Correct rounding keeps an exact value of at least 0 between 0 and any finite pattern above it. -/
theorem mem_range_of_roundsTo {x : ℚ} {r w : Word} (h : RoundsTo x r) (hw : isFinite w = true) (h0 : 0 ≤ x)
    (hx : x ≤ value w) : isFinite r = true ∧ 0 ≤ value r ∧ value r ≤ value w := by
  have hr : isFinite r = true := h.finite w (by rwa [abs_of_nonneg h0, abs_of_nonneg (h0.trans hx)])
  have hlow : value f32Zero ≤ value r := h.value_le hr (by decide) (by rwa [value_f32Zero])
  exact ⟨hr, value_f32Zero ▸ hlow, h.le_value hr hw hx⟩

/-- The sum of a phase and an increment in range does not pass the greatest one. -/
theorem advance_range {idx inc : Word} (hidx : InPhase idx) (hinc : InPhase inc) :
    isFinite (advance idx inc) = true ∧ 0 ≤ value (advance idx inc) ∧ value (advance idx inc) ≤ value 0x457fffff#32 := by
  obtain ⟨hidxFin, hidx0, hidxN⟩ := hidx
  obtain ⟨hincFin, hinc0, hincN⟩ := hinc
  have hsum : value idx + value inc ≤ value 0x457fffff#32 :=
    value_greatest_sum ▸ add_le_add (value_le_of_lt_2048 hidxFin hidxN) (value_le_of_lt_2048 hincFin hincN)
  exact mem_range_of_roundsTo (sumRoundsToNearest idx inc hidxFin hincFin).1 (by decide) (add_nonneg hidx0 hinc0) hsum

/-- One wrap brings such a sum back into range. -/
theorem inPhase_wrap {p : Word} (hfin : isFinite p = true) (h0 : 0 ≤ value p) (hp : value p ≤ value 0x457fffff#32) :
    InPhase (wrap p) := by
  have hN : isFinite f32N = true := by decide
  unfold wrap
  split
  case isTrue hge =>
    have hle : value f32N ≤ value p := (ge32_iff_value_le hfin hN).1 hge
    obtain ⟨hwrapped, hlt⟩ := value_greatest_wrapped
    obtain ⟨hr, hr0, hrle⟩ := mem_range_of_roundsTo (w := 0x44fffffe#32) (differenceRoundsToNearest p f32N hfin hN).1
      (by decide) (sub_nonneg.2 hle) (hwrapped ▸ sub_le_sub_right hp _)
    exact ⟨hr, hr0, hrle.trans_lt hlt⟩
  case isFalse hge =>
    have hlt : value p < value f32N := not_le.1 (mt (ge32_iff_value_le hfin hN).2 hge)
    exact ⟨hfin, h0, value_f32N ▸ hlt⟩

theorem inPhase_wrap_advance {idx inc : Word} (hidx : InPhase idx) (hinc : InPhase inc) :
    InPhase (wrap (advance idx inc)) := by
  obtain ⟨hfin, h0, hle⟩ := advance_range hidx hinc
  exact inPhase_wrap hfin h0 hle

/-- Every phase in range has a table entry (R121). -/
theorem exists_tableIndex_of_inPhase {p : Word} (h : InPhase p) : ∃ k, tableIndex p = some k := by
  obtain ⟨hfin, h0, hN⟩ := h
  have hu0 : 0 ≤ units p := by simpa using (int_le_value p 0).1 (by simpa using h0)
  have huN : units p < 2048 * 2 ^ 149 := (value_lt_int p 2048).1 (by exact_mod_cast hN)
  have htrunc : trunc p = units p / 2 ^ 149 := Int.tdiv_eq_ediv_of_nonneg hu0
  refine Option.ne_none_iff_exists'.1 fun hnone => ?_
  obtain hinf | hneg | hbig := tableIndex_eq_none.1 hnone
  · exact absurd (hinf.symm.trans hfin) Bool.false_ne_true
  · omega
  · omega

/-- In range, `RENDER` ends with an entry of the table, and the phase is in range again. -/
theorem exists_performed_render {s : State} (hr : s.ready = true) (hidx : InPhase s.idx) (hinc : InPhase s.inc) :
    ∃ (p : Word) (k : Fin 2048), InPhase p ∧ Performed s .render ((s.accept.write .idx p).respond (romRead s.rom k)) := by
  have hp : InPhase (wrap (advance s.idx s.inc)) := inPhase_wrap_advance hidx hinc
  obtain ⟨k, hk⟩ := exists_tableIndex_of_inPhase hp
  exact ⟨_, k, hp, .renderEntry k hr hk⟩

/-! ## Two hosts at one oscillator (R59) -/

theorem perform_cons {s t : State} {i : Instr} (h : Performed s i t) (rest : List Instr) :
    perform (i :: rest) s = perform rest t := by
  rw [perform, h.exec_eq]

/-- Settles O45, by induction on the interleaving: READY, the range of IDX and INC, and FS are kept by each command of
either host. -/
theorem interleavedHostsStayInRange : Obligations.InterleavedHostsStayInRange := by
  intro renders settings cmds s hr hidx hinc hrenders hsettings hcmds
  induction hcmds generalizing s with
  | nil => exact ⟨s, rfl, rfl, hidx, rfl⟩
  | left _ ih =>
    obtain ⟨rfl, hrest⟩ := List.forall_mem_cons.1 hrenders
    obtain ⟨p, k, hp, hrender⟩ := exists_performed_render hr hidx hinc
    obtain ⟨t, ht, hfaults, htidx, hsamples⟩ := ih ((s.accept.write .idx p).respond (romRead s.rom k)) hr hp hinc hrest hsettings
    refine ⟨t, (perform_cons hrender _).trans ht, hfaults, htidx, ?_⟩
    simpa [Nat.add_assoc, Nat.add_comm] using hsamples
  | right _ ih =>
    obtain ⟨⟨f0, rfl, hf0⟩, hrest⟩ := List.forall_mem_cons.1 hsettings
    obtain ⟨t, ht, hkept⟩ := ih (s.accept.write .inc (incOf f0 s.fs)) hr hidx hf0 hrenders hrest
    exact ⟨t, (perform_cons (.setf0Ready f0 hr) _).trans ht, hkept⟩

/-! ## The port (R58) -/

/-- No command looks at what waits at the port. -/
theorem Performed.withPort {s t : State} {i : Instr} (h : Performed s i t) (port : List PortEvent) :
    Performed { s with port := port } i { t with port := port } := by
  cases h with
  | initAccepted fs f0 hfs => exact .initAccepted fs f0 hfs
  | initRejected fs f0 hfs => exact .initRejected fs f0 hfs
  | setf0Ready f0 hr => exact .setf0Ready (s := { s with port := port }) f0 hr
  | setf0NotReady f0 hr => exact .setf0NotReady (s := { s with port := port }) f0 hr
  | renderEntry k hr hk => exact .renderEntry (s := { s with port := port }) k hr hk
  | renderOutOfTable hr hk => exact .renderOutOfTable (s := { s with port := port }) hr hk
  | renderNotReady hr => exact .renderNotReady (s := { s with port := port }) hr
  | reserved => exact .reserved

theorem Performed.port_eq {s t : State} {i : Instr} (h : Performed s i t) : t.port = s.port := by
  obtain ⟨-, -, hport, -⟩ := commandFrames i s t h.exec_eq
  exact hport

/-- A step performs the command that is next at the port, before whatever waits behind it. -/
theorem Performed.step_eq {s t : State} {cw : CommandWord} (h : Performed s (decode cw) t) (rest : List PortEvent) :
    step { s with port := .command cw :: rest } = .next { t with port := rest } :=
  (step_of_command rfl).trans (h.withPort rest).exec_eq

theorem run_succ_of_step {M : Host.Core} {s t : M.State} (h : M.step s = .next t) (n : Nat) :
    M.run (n + 1) s = M.run n t := by
  rw [Host.Core.run, h]

/-- Settles O25, by induction on the events: each step takes one event from the port and performs it, and what waits behind
it is kept. -/
theorem runIsComposition : Obligations.RunIsComposition := by
  intro events
  induction events with
  | nil =>
    intro s hs
    have hport : { s with port := [] } = s := by rw [← hs]
    exact congrArg Host.Outcome.next hport
  | cons e rest ih =>
    intro s hs
    cases e with
    | reset => exact (run_succ_of_step rfl _).trans (ih s.resetEvent hs)
    | command cw =>
      obtain ⟨t, ht⟩ := exists_performed (decode cw) s
      have hstep : core.step { s with port := .command cw :: rest } = .next { t with port := rest } :=
        ht.step_eq rest
      rw [List.length_cons, run_succ_of_step hstep, ih t (ht.port_eq.trans hs), performEvents, ht.exec_eq]

/-! ## A configuration repeated (R54) -/

/-- Settles O56: the second command is accepted as the first was, and writes the words that are in force. -/
theorem configurationIsIdempotent : Obligations.ConfigurationIsIdempotent := by
  refine ⟨fun f0 s hr => ?_, fun fs f0 s hfs => ?_⟩
  · exact ⟨_, (Performed.setf0Ready f0 hr).exec_eq, (Performed.setf0Ready (s := s.accept.write .inc _) f0 hr).exec_eq⟩
  · exact ⟨_, (Performed.initAccepted fs f0 hfs).exec_eq, (Performed.initAccepted fs f0 hfs).exec_eq⟩

end Sys2Proof.Proofs
end

section
/-! Encoding and listings: a command word is its three fields, canonical words and decoded commands correspond, and a listing
reads back (R70 to R81). -/

namespace Sys2Proof.Proofs

open Sys2Proof.Machine

/-! ## Words and commands -/

/-- A command word is OP, A and B (R71). -/
theorem commandWord_fields (cw : CommandWord) : commandWord (opField cw) (aField cw) (bField cw) = cw := by
  apply BitVec.eq_of_getLsbD_eq
  intro i hi
  rw [commandWord_getLsbD, opField, aField, bField, BitVec.getLsbD_extractLsb', BitVec.getLsbD_extractLsb',
    BitVec.getLsbD_extractLsb']
  split
  · simp [*]
  · split
    · simp [show i - 32 < 32 by omega, show 32 + (i - 32) = i by omega]
    · simp [show i - 64 < 2 by omega, show 64 + (i - 64) = i by omega]

/-! The rows of R72: what a word of each selector decodes to, whatever its ignored fields hold. -/

theorem decode_init (a b : Word) : decode (commandWord 0b01#2 a b) = .init a b := by simp [decode]

theorem decode_setf0 (a b : Word) : decode (commandWord 0b10#2 a b) = .setf0 a := by simp [decode]

theorem decode_render (a b : Word) : decode (commandWord 0b11#2 a b) = .render := by simp [decode]

theorem decode_reserved (a b : Word) : decode (commandWord 0b00#2 a b) = .reserved := by simp [decode]

/-- Settles O1: each canonical word carries its own row's selector. -/
theorem decodeOfEncode : Obligations.DecodeOfEncode
  | .init fs f0 => decode_init fs f0
  | .setf0 f0 => decode_setf0 f0 0#32
  | .render => decode_render 0#32 0#32
  | .reserved => decode_reserved 0#32 0#32

/-- Settles O3: the fields of a word are its OP, A and B, and each selector has its row. -/
theorem decodeIsTotal : Obligations.DecodeIsTotal :=
  ⟨fun cw => ⟨opField cw, aField cw, bField cw, (commandWord_fields cw).symm⟩,
    fun a b => ⟨decode_init a b, decode_setf0 a b, decode_render a b, decode_reserved a b⟩⟩

/-- A mask acts on each field by itself. -/
theorem commandWord_and (op op' : BitVec 2) (a a' b b' : Word) :
    commandWord op a b &&& commandWord op' a' b' = commandWord (op &&& op') (a &&& a') (b &&& b') :=
  BitVec.and_append.trans (congrArg _ BitVec.and_append)

/-- The operand fields a selector's command uses (R74). -/
theorem usedFields_eq (op : BitVec 2) :
    (if op = 0b01#2 then BitVec.allOnes 66
      else if op = 0b10#2 then 0x3ffffffff00000000#66 else 0x30000000000000000#66) =
    commandWord (BitVec.allOnes 2) (if op = 0b01#2 ∨ op = 0b10#2 then BitVec.allOnes 32 else 0#32)
      (if op = 0b01#2 then BitVec.allOnes 32 else 0#32) := by
  decide +revert

/-- Settles O2: the mask keeps the selector and the fields its command uses, and the others become zero. -/
theorem encodeOfDecodeIsCanonical : Obligations.EncodeOfDecodeIsCanonical := by
  intro cw
  obtain ⟨op, a, b, rfl⟩ : ∃ op a b, cw = commandWord op a b := decodeIsTotal.1 cw
  rw [opField_commandWord, usedFields_eq, commandWord_and, BitVec.and_allOnes]
  obtain rfl | rfl | rfl | rfl : op = 0b01#2 ∨ op = 0b10#2 ∨ op = 0b11#2 ∨ op = 0b00#2 := by decide +revert
  · simp [decode_init, encode, -BitVec.reduceAllOnes]
  · simp [decode_setf0, encode, -BitVec.reduceAllOnes]
  · simp [decode_render, encode]
  · simp [decode_reserved, encode]

/-- Settles O4: each example is a computation on literal words. -/
theorem encodingExamples : Obligations.EncodingExamples := by
  unfold Obligations.EncodingExamples
  decide

/-! ## Hexadecimal operands -/

theorem hexDigits_length (k n : Nat) : (hexDigits k n).length = k := by
  induction k generalizing n with
  | zero => rfl
  | succ k ih => simp [hexDigits, ih]

/-- What holds of the sixteen digits holds of every character of a number. -/
theorem hexDigits_all {p : Char → Bool} (h : ∀ d < 16, p (hexChar d) = true) (k n : Nat) :
    (hexDigits k n).all p = true := by
  induction k generalizing n with
  | zero => rfl
  | succ k ih => simp [hexDigits, ih, h _ (Nat.mod_lt n (by decide : 0 < 16))]

theorem hexDigit_hexChar : ∀ d < 16, hexDigit (hexChar d) = some d := by decide

theorem digitsFrom_append (base : Nat) (digit : Char → Option Nat) (acc : Nat) (xs ys : List Char) :
    digitsFrom base digit acc (xs ++ ys) = (digitsFrom base digit acc xs).bind (fun n => digitsFrom base digit n ys) := by
  induction xs generalizing acc with
  | nil => rfl
  | cons c xs ih => cases hd : digit c <;> simp [digitsFrom, hd, ih]

/-- The digits printed read as the number's low digits. -/
theorem digitsFrom_hexDigits (k n : Nat) : digitsFrom 16 hexDigit 0 (hexDigits k n) = some (n % 16 ^ k) := by
  induction k generalizing n with
  | zero => simp [hexDigits, digitsFrom, Nat.mod_one]
  | succ k ih =>
    have hlast : hexDigit (hexChar (n % 16)) = some (n % 16) := hexDigit_hexChar _ (Nat.mod_lt n (by decide))
    have hsplit : n / 16 % 16 ^ k * 16 + n % 16 = n % 16 ^ (k + 1) := by
      rw [Nat.pow_succ', Nat.mod_mul]
      omega
    simp [hexDigits, digitsFrom_append, ih, digitsFrom, hlast, hsplit]

/-- Eight digits hold a word. -/
theorem hexWord_hexDigits (w : Word) : hexWord (hexDigits 8 w.toNat) = some w := by
  have hlow : w.toNat % 16 ^ 8 = w.toNat := Nat.mod_eq_of_lt w.isLt
  rw [hexWord, if_pos (hexDigits_length 8 _), digitsFrom_hexDigits, hlow, Option.map_some,
    BitVec.ofNat_toNat, BitVec.setWidth_eq]

theorem operand_rawOperand (w : Word) : operand (rawOperand w) = some w := hexWord_hexDigits w

/-- The one operand of `.cmd`, `0x0_AAAAAAAA_BBBBBBBB`. -/
def reservedOperand (a b : Word) : List Char :=
  ['0', 'x', '0', '_'] ++ hexDigits 8 a.toNat ++ ['_'] ++ hexDigits 8 b.toNat

theorem reservedWord_reservedOperand (a b : Word) : reservedWord (reservedOperand a b) = some .reserved := by
  have hlen := hexDigits_length 8 a.toNat
  simp [reservedOperand, reservedWord, List.drop_left' hlen, List.take_left' hlen, hexWord_hexDigits]

/-! ## The tokens of a line -/

/-- A character that ends no token and begins no comment. -/
def isTokenChar (c : Char) : Bool := !(c == ' ' || c == '\t' || c == '\r' || c == ',' || c == ';')

/-- A text that stands as one token of a line. -/
def isToken (t : List Char) : Bool := !t.isEmpty && t.all isTokenChar

theorem isToken_iff (t : List Char) : isToken t = true ↔ t ≠ [] ∧ t.all isTokenChar = true := by
  simp [isToken]

/-- Token characters join the token being read. -/
theorem tokens_append {t : List Char} (h : t.all isTokenChar = true) (cur rest : List Char) :
    tokens cur (t ++ rest) = tokens (cur ++ t) rest := by
  induction t generalizing cur with
  | nil => simp
  | cons c t ih =>
    obtain ⟨hc, ht⟩ : isTokenChar c = true ∧ t.all isTokenChar = true := by simpa using h
    have hstep : tokens cur (c :: (t ++ rest)) = tokens (cur ++ [c]) (t ++ rest) := by simp_all [tokens, isTokenChar]
    rw [List.cons_append, hstep, ih ht, List.append_assoc, List.singleton_append]

/-- A token is finished by the end of the line, a blank or a comma. -/
theorem tokens_of_isToken {t : List Char} (h : isToken t = true) (rest : List Char) :
    tokens [] t = [t] ∧ tokens [] (t ++ ' ' :: rest) = t :: tokens [] rest ∧
      tokens [] (t ++ ',' :: rest) = t :: [','] :: tokens [] rest := by
  obtain ⟨hne, hall⟩ := (isToken_iff t).1 h
  have hflush : flushToken t = [t] := by simp [flushToken, hne]
  have hend := tokens_append hall [] []
  rw [List.append_nil] at hend
  rw [hend, tokens_append hall, tokens_append hall, List.nil_append]
  simp [tokens, hflush]

theorem stripComment_of_all {line : List Char} (h : line.all (· != ';') = true) : stripComment line = line :=
  List.takeWhile_eq_self_iff.2 (List.all_eq_true.1 h)

theorem no_semicolon_of_isToken {t : List Char} (h : isToken t = true) : t.all (· != ';') = true := by
  obtain ⟨-, hall⟩ := (isToken_iff t).1 h
  exact List.all_eq_true.2 fun c hc => by
    have hsemicolon := List.all_eq_true.1 hall c hc
    simp_all [isTokenChar]

/-! ## The lines of a listing -/

section
variable {m a b : List Char} (hm : isToken m = true) (ha : isToken a = true) (hb : isToken b = true)

include hm

theorem parseLine_mnemonic : parseLine m = parseTokens [m] := by
  rw [parseLine, stripComment_of_all (no_semicolon_of_isToken hm), (tokens_of_isToken hm []).1]

include ha

theorem parseLine_operand : parseLine (m ++ ' ' :: a) = parseTokens [m, a] := by
  have hline : (m ++ ' ' :: a).all (· != ';') = true := by
    simp only [List.all_append, List.all_cons, no_semicolon_of_isToken, hm, ha]; rfl
  rw [parseLine, stripComment_of_all hline, (tokens_of_isToken hm a).2.1, (tokens_of_isToken ha []).1]

include hb

theorem parseLine_operands : parseLine (m ++ ' ' :: (a ++ ',' :: ' ' :: b)) = parseTokens [m, a, [','], b] := by
  have hline : (m ++ ' ' :: (a ++ ',' :: ' ' :: b)).all (· != ';') = true := by
    simp only [List.all_append, List.all_cons, no_semicolon_of_isToken, hm, ha, hb]; rfl
  have hblank : tokens [] (' ' :: b) = tokens [] b := rfl
  rw [parseLine, stripComment_of_all hline, (tokens_of_isToken hm _).2.1, (tokens_of_isToken ha _).2.2, hblank,
    (tokens_of_isToken hb []).1]

end

theorem isTokenChar_hexChar : ∀ d < 16, isTokenChar (hexChar d) = true := by decide

theorem isToken_rawOperand (w : Word) : isToken (rawOperand w) = true := by
  have hprefix : ['#', '0', 'x'].all isTokenChar = true := by decide
  rw [isToken_iff, rawOperand, List.all_append, hprefix, hexDigits_all isTokenChar_hexChar]
  simp

theorem isToken_reservedOperand (a b : Word) : isToken (reservedOperand a b) = true := by
  have hprefix : ['0', 'x', '0', '_'].all isTokenChar = true := by decide
  have hbetween : ['_'].all isTokenChar = true := by decide
  simp only [isToken_iff, reservedOperand, List.all_append, hprefix, hbetween, hexDigits_all isTokenChar_hexChar]
  simp

/-- Settles O59: a case for each line a listing prints. -/
theorem listingReadsBack : Obligations.ListingReadsBack := by
  intro cw
  cases hcw : decode cw with
  | init fs f0 =>
    have hline : listing cw = ['I', 'N', 'I', 'T'] ++ ' ' :: (rawOperand fs ++ ',' :: ' ' :: rawOperand f0) := by
      simp [listing, hcw]
    rw [hline, parseLine_operands rfl (isToken_rawOperand fs) (isToken_rawOperand f0)]
    simp [parseTokens, operand_rawOperand]
  | setf0 f0 =>
    have hline : listing cw = ['S', 'E', 'T', 'F', '0'] ++ ' ' :: rawOperand f0 := by simp [listing, hcw]
    rw [hline, parseLine_operand rfl (isToken_rawOperand f0)]
    simp [parseTokens, operand_rawOperand]
  | render =>
    have hline : listing cw = ['R', 'E', 'N', 'D', 'E', 'R'] := by simp [listing, hcw]
    rw [hline, parseLine_mnemonic rfl]
    rfl
  | reserved =>
    have hline : listing cw = ['.', 'c', 'm', 'd'] ++ ' ' :: reservedOperand (aField cw) (bField cw) := by
      simp [listing, hcw, reservedOperand]
    rw [hline, parseLine_operand rfl (isToken_reservedOperand _ _)]
    simp [parseTokens, reservedWord_reservedOperand]

end Sys2Proof.Proofs
end

section
/-! The increment (R100 to R109): 2048 times a frequency is that frequency with its exponent field raised by 11, so the
division alone rounds; and a frequency below `fs/2` lies at least one pattern below it. -/

namespace Sys2Proof.Proofs

open Sys2Proof.Machine

/-! ## Patterns and their exponent (R73) -/

/-- A normal pattern with its exponent field raised by `j` holds 2^j times its magnitude. -/
theorem magOf_add_exponent {b : Nat} (hb : 2 ^ 23 ≤ b) (j : Nat) : magOf (b + j * 2 ^ 23) = magOf b * 2 ^ j := by
  have hE : 1 ≤ b / 2 ^ 23 := by omega
  unfold magOf magUnits
  rw [Nat.add_mul_div_right _ _ (Nat.two_pow_pos 23), Nat.add_mul_mod_self_right, if_neg (by omega), if_neg (by omega),
    Nat.mul_assoc, ← Nat.pow_add, show b / 2 ^ 23 - 1 + j = b / 2 ^ 23 + j - 1 by omega]

/-- A pattern and the next one are `q` and `q + 1` steps of one size, and `q` has 24 bits. -/
theorem exists_step (b : Nat) : ∃ q e, q < 2 ^ 24 ∧ magOf b = q * 2 ^ e ∧ magOf (b + 1) = (q + 1) * 2 ^ e := by
  obtain ⟨q, e, rfl, hq, he⟩ : ∃ q e, b = e * 2 ^ 23 + q ∧ q < 2 ^ 24 ∧ (e ≠ 0 → 2 ^ 23 ≤ q) :=
    ⟨b - (b / 2 ^ 23 - 1) * 2 ^ 23, b / 2 ^ 23 - 1, by omega, by omega, by omega⟩
  have hsucc : e ≠ 0 → 2 ^ 23 ≤ q + 1 := fun h => Nat.le_succ_of_le (he h)
  exact ⟨q, e, hq, magOf_scaled hq.le he, by rw [Nat.add_assoc, magOf_scaled (Nat.succ_le_of_lt hq) hsucc]⟩

/-- A pattern's magnitude is less than that of any greater finite one by at least the 2^24-th part of it. -/
theorem magOf_gap_of_lt {a b : Nat} (hb : b < infBits) (h : a < b) : 2 ^ 24 * magOf a + magOf b ≤ 2 ^ 24 * magOf b := by
  obtain ⟨c, rfl⟩ : ∃ c, b = c + 1 := ⟨b - 1, by omega⟩
  obtain ⟨q, e, hq, hc, hsucc⟩ := exists_step c
  have hac : magOf a ≤ magOf c := magOf_le (by omega) (by omega)
  have hstep : (q + 1) * 2 ^ e ≤ 2 ^ 24 * 2 ^ e := Nat.mul_le_mul_right _ hq
  rw [hc] at hac
  rw [hsucc]
  linarith

/-- Below 2^117, in units of 2^-149, 2048 times a pattern's magnitude is again a pattern's. -/
theorem exists_magOf_mul_2048 {b : Nat} (hb : b < infBits) (h : magOf b < 2 ^ 117 * 2 ^ 149) :
    ∃ c, c < infBits ∧ magOf c = magOf b * 2 ^ 11 := by
  by_cases hsub : b < 2 ^ 23
  · obtain ⟨c, hc, hm⟩ := exists_magOf b 11 (by omega) (by omega)
    refine ⟨c, hc, ?_⟩
    rw [hm, magOf, magUnits, if_pos (by omega), Nat.mod_eq_of_lt hsub]
  · have htop : b < 244 * 2 ^ 23 := by
      by_contra hge
      have hle : magOf (244 * 2 ^ 23) ≤ magOf b := magOf_le hb (not_lt.1 hge)
      have hpow : magOf (244 * 2 ^ 23) = 2 ^ 117 * 2 ^ 149 := by decide
      exact absurd h (not_lt.2 (hpow.ge.trans hle))
    exact ⟨b + 11 * 2 ^ 23, by unfold infBits; omega, magOf_add_exponent (not_lt.1 hsub) 11⟩

/-! ## Signs and values -/

theorem signBit_of_value_pos {w : Word} (hw : isFinite w = true) (h : 0 < value w) : signBit w = false := by
  by_contra hs
  have hu := units_nonpos_of_signBit hw (by simpa using hs)
  have hpos : 0 < units w := by simpa using (int_lt_value w 0).1 (by simpa using h)
  omega

/-- A finite value is 2^-149 times its magnitude, up to the sign. -/
theorem abs_value {w : Word} (hw : isFinite w = true) : |value w| = (magOf (lowBits w) : ℚ) / 2 ^ 149 := by
  rw [value_of_finite hw]
  cases signBit w <;> simp [abs_div]

theorem value_of_pos {w : Word} (hw : isFinite w = true) (h : 0 < value w) : value w = (magOf (lowBits w) : ℚ) / 2 ^ 149 := by
  rw [← abs_value hw, abs_of_pos h]

/-- An exact zero rounds to the zero of the sign asked for. -/
theorem roundTo_zero (neg : Bool) {d : Nat} (hd : 0 < d) : roundTo neg 0 d = zero neg := by
  have h : roundBits (magOf 0 * d) d = 0 := roundBits_exact 0 d hd (by decide)
  rw [show magOf 0 = 0 from rfl, Nat.zero_mul] at h
  rw [roundTo, h, zero]

/-- A result that overflows is the infinity of its sign. -/
theorem eq_infinity_of_overflow {x : ℚ} {r : Word} (h : RoundsTo x r) (hx : 2 ^ 128 - 2 ^ 103 ≤ |x|) :
    r = infinity (signBit r) := by
  obtain ⟨hnan, hover, -⟩ := h
  obtain hfin | ⟨neg, rfl⟩ | hnan' := kinds r
  · exact absurd ((hover.2 hx).symm.trans hfin) Bool.false_ne_true
  · cases neg <;> rfl
  · exact absurd (hnan.symm.trans hnan') Bool.false_ne_true

/-! ## The product with 2048 (R101) -/

theorem isFinite_f32N : isFinite f32N = true := by decide

theorem signBit_mul32_f32N {f0 : Word} (h : isFinite f0 = true) : signBit (mul32 f32N f0) = signBit f0 := by
  rw [(productRoundsToNearest f32N f0 isFinite_f32N h).2, show signBit f32N = false by decide, Bool.false_xor]

/-- Below 2^117 a pattern of either sign holds 2048 times the value. -/
theorem exists_value_eq_2048_mul {f0 : Word} (h : isFinite f0 = true) (hlt : |value f0| < 2 ^ 117) :
    ∃ w : Word, isFinite w = true ∧ value w = 2048 * value f0 := by
  rw [abs_value h, div_lt_iff₀ (by positivity)] at hlt
  have hm : magOf (lowBits f0) < 2 ^ 117 * 2 ^ 149 := by exact_mod_cast hlt
  obtain ⟨c, hc, hmc⟩ := exists_magOf_mul_2048 ((isFinite_iff f0).1 h) hm
  have hu := unpack_withSign (signBit f0) hc
  refine ⟨withSign (signBit f0) c, isFinite_of_unpack hu, ?_⟩
  have hunits : units (withSign (signBit f0) c) = 2048 * units f0 := by
    rw [units, hu, units_of_finite h, hmc]
    cases signBit f0 <;> simp [signed] <;> ring
  rw [value, hunits, value]
  push_cast
  ring

/-- Below 2^117 the product with 2048 is exact. -/
theorem mul32_f32N_exact {f0 : Word} (h : isFinite f0 = true) (hlt : |value f0| < 2 ^ 117) :
    isFinite (mul32 f32N f0) = true ∧ value (mul32 f32N f0) = 2048 * value f0 := by
  obtain ⟨w, hw, hv⟩ := exists_value_eq_2048_mul h hlt
  have hround := (productRoundsToNearest f32N f0 isFinite_f32N h).1
  rw [value_f32N, ← hv] at hround
  rw [← hv]
  exact hround.exact hw rfl

/-- From 2^117 on it is an infinity. -/
theorem mul32_f32N_overflow {f0 : Word} (h : isFinite f0 = true) (hge : 2 ^ 117 ≤ |value f0|) :
    mul32 f32N f0 = infinity (signBit f0) := by
  have hround := (productRoundsToNearest f32N f0 isFinite_f32N h).1
  rw [← signBit_mul32_f32N h]
  refine eq_infinity_of_overflow hround ?_
  rw [value_f32N, abs_mul, abs_of_pos (by norm_num : (0 : ℚ) < 2048)]
  calc (2 : ℚ) ^ 128 - 2 ^ 103 ≤ 2048 * 2 ^ 117 := by norm_num
    _ ≤ 2048 * |value f0| := by gcongr

theorem mul32_f32N_zero (s : Bool) : mul32 f32N (zero s) = zero s := by
  cases s <;> decide

theorem mul32_f32N_infinity (s : Bool) : mul32 f32N (infinity s) = infinity s := by
  cases s <;> decide

/-! ## The increment -/

/-- Below 2^117 only the division rounds. -/
theorem incOf_roundsTo {f0 fs : Word} (h : isFinite f0 = true) (hlt : |value f0| < 2 ^ 117) (hfs : isFinite fs = true)
    (hpos : 0 < value fs) : RoundsTo (2048 * value f0 / value fs) (incOf f0 fs) := by
  obtain ⟨hfin, hv⟩ := mul32_f32N_exact h hlt
  rw [← hv]
  exact (quotientRoundsToNearest _ fs hfin hfs hpos.ne').1

/-- An infinity over a positive rate is that infinity. -/
theorem div32_infinity {fs : Word} (hfs : isFinite fs = true) (hpos : 0 < value fs) (s : Bool) :
    div32 (infinity s) fs = infinity s := by
  obtain ⟨-, -, -, -, hdiv, -⟩ := infinity_absorbs s hfs
  rw [hdiv, signBit_of_value_pos hfs hpos, Bool.xor_false]

/-- A zero over a positive rate is that zero. -/
theorem div32_zero {fs : Word} (hfs : isFinite fs = true) (hpos : 0 < value fs) (s : Bool) : div32 (zero s) fs = zero s := by
  have hu : units fs ≠ 0 := mt (value_eq_zero_iff fs).2 hpos.ne'
  have hz := unpack_zero s
  have hunits : units (zero s) = 0 := by cases s <;> decide
  have hsign : signBit (zero s) = s := by cases s <;> decide
  rw [div32_of_finite (isFinite_of_unpack hz) hfs hu, hunits, hsign, signBit_of_value_pos hfs hpos, Bool.xor_false,
    Int.natAbs_zero, Nat.zero_mul, roundTo_zero s (Int.natAbs_pos.2 hu)]

/-- A NaN frequency gives a NaN at any rate. -/
theorem isNaN_incOf {f0 : Word} (fs : Word) (h : isNaN f0 = true) : isNaN (incOf f0 fs) = true := by
  obtain ⟨⟨-, -, hmul, -⟩, -⟩ := operations_of_isNaN (a := f32N) (b := f0) (by rw [h, Bool.or_true])
  obtain ⟨⟨-, -, -, hdiv⟩, -⟩ := operations_of_isNaN (a := mul32 f32N f0) (b := fs)
    (by rw [hmul, isNaN_nanResult, Bool.true_or])
  rw [incOf, hdiv]
  exact isNaN_nanResult ..

/-- Settles O34: the product is exact below 2^117 and an infinity from there on, and the division rounds once. -/
theorem incrementIsRoundedQuotient : Obligations.IncrementIsRoundedQuotient := by
  intro f0 fs h
  refine ⟨mul32_f32N_exact h, fun hfs hpos => ⟨fun hlt => incOf_roundsTo h hlt hfs hpos, fun hge => ?_⟩⟩
  rw [incOf, mul32_f32N_overflow h hge, div32_infinity hfs hpos]

/-- Settles O35: sixteen closed rows, evaluated. -/
theorem incrementTable : Obligations.IncrementTable := by
  unfold Obligations.IncrementTable
  decide +kernel

/-! ## The rates that `INIT` accepts (R103) -/

/-- The rates greater than zero are the patterns without a sign from the least subnormal to `+inf`. -/
theorem gt32_zero_iff (fs : Word) : gt32 fs f32Zero = true ↔ signBit fs = false ∧ 0 < lowBits fs ∧ lowBits fs ≤ infBits := by
  have hinf : 0 < infBits := by decide
  obtain hfin | ⟨neg, rfl⟩ | hnan := kinds fs
  · have hlt := (isFinite_iff fs).1 hfin
    have hmag : 0 < magOf (lowBits fs) ↔ 0 < lowBits fs :=
      ⟨fun h => Nat.pos_of_ne_zero fun h0 => by rw [h0] at h; exact absurd h (by decide), fun h => magOf_lt (a := 0) hlt h⟩
    rw [gt32_of_finite hfin (by decide), decide_eq_true_iff, show units f32Zero = 0 by decide, units_of_finite hfin, ← hmag]
    cases signBit fs <;> simp [signed, hlt.le]
  · cases neg <;> decide
  · have hgt := (isNaN_iff fs).1 hnan
    obtain ⟨-, hfalse, -⟩ := operations_of_isNaN (a := fs) (b := f32Zero) (by rw [hnan, Bool.true_or])
    rw [hfalse]
    exact ⟨fun h => absurd h Bool.false_ne_true, fun ⟨_, _, hle⟩ => absurd hle (by omega)⟩

/-- A rate that `INIT` accepts is a positive number or `+inf`. -/
theorem finite_pos_or_infinity_of_gt32 {fs : Word} (h : gt32 fs f32Zero = true) :
    isFinite fs = true ∧ 0 < value fs ∨ fs = infinity false := by
  obtain ⟨hs, -, hle⟩ := (gt32_zero_iff fs).1 h
  rcases hle.lt_or_eq with hlt | heq
  · have hfin := (isFinite_iff fs).2 hlt
    exact .inl ⟨hfin, value_f32Zero ▸ (gt32_iff_value_lt hfin (by decide)).1 h⟩
  · exact .inr (by rw [infinity, ← heq, ← hs, withSign_lowBits])

/-- Settles O36: the product keeps a zero, an infinity and a NaN, and so does the division by a positive number; `+inf`
takes a finite product to a zero. -/
theorem incrementCornerCases : Obligations.IncrementCornerCases := by
  intro fs hgt
  obtain ⟨hfs, hpos⟩ | rfl := finite_pos_or_infinity_of_gt32 hgt
  · refine ⟨fun s => ?_, fun _ => isNaN_incOf fs, fun _ s => ?_, fun hinf => absurd (hinf.symm.trans hfs) Bool.false_ne_true⟩
    · rw [incOf, mul32_f32N_zero, div32_zero hfs hpos]
    · rw [incOf, mul32_f32N_infinity, div32_infinity hfs hpos]
  · refine ⟨fun s => ?_, fun _ => isNaN_incOf _, fun hfin => absurd hfin (by decide), fun _ => ⟨fun f0 h hlt => ?_, fun s => ?_⟩⟩
    · cases s <;> decide
    · obtain ⟨-, -, -, -, -, hdiv⟩ := infinity_absorbs false (mul32_f32N_exact h hlt).1
      rw [incOf, hdiv, signBit_mul32_f32N h, Bool.false_xor]
    · rw [incOf, mul32_f32N_infinity]
      exact (isNaN_of_invalid s false).1

/-! ## Below the Nyquist frequency (R108) -/

/-- With `fs/2` a normal number, a frequency below `fs/2` is below it by at least its 2^24-th part. -/
theorem value_le_of_lt_half {f0 fs : Word} (hfs : isFinite fs = true) (hf0 : isFinite f0 = true)
    (hmin : 2 ^ (-125 : ℤ) ≤ value fs) (hpos : 0 < value f0) (hlt : value f0 < value fs / 2) :
    2048 * value f0 ≤ (1024 - 1 / 2 ^ 14) * value fs := by
  have hfsPos : 0 < value fs := lt_of_lt_of_le (by positivity) hmin
  have hb := (isFinite_iff fs).1 hfs
  rw [value_of_pos hfs hfsPos] at hmin hlt ⊢
  rw [value_of_pos hf0 hpos] at hlt ⊢
  have hnormal : 2 ^ 24 ≤ magOf (lowBits fs) := by
    have : (2 ^ 24 : ℚ) ≤ magOf (lowBits fs) := by
      rw [le_div_iff₀ (by positivity)] at hmin
      exact le_trans (by norm_num) hmin
    exact_mod_cast this
  have hfield : 2 ^ 24 ≤ lowBits fs := by
    by_contra hsmall
    have hless : magOf (lowBits fs) < magOf (2 ^ 24) := magOf_lt (by decide) (not_le.1 hsmall)
    have hpow : magOf (2 ^ 24) = 2 ^ 24 := by decide
    omega
  obtain ⟨b, hbNormal, hsum⟩ : ∃ b, 2 ^ 23 ≤ b ∧ lowBits fs = b + 1 * 2 ^ 23 :=
    ⟨lowBits fs - 2 ^ 23, by omega, by omega⟩
  have hhalf : magOf (lowBits fs) = magOf b * 2 ^ 1 := hsum ▸ magOf_add_exponent hbNormal 1
  rw [hhalf] at hlt ⊢
  have hmag : magOf (lowBits f0) < magOf b := by
    have : (magOf (lowBits f0) : ℚ) < magOf b := by
      push_cast at hlt
      linarith
    exact_mod_cast this
  have hpat : lowBits f0 < b := by
    by_contra hge
    have := magOf_le ((isFinite_iff f0).1 hf0) (not_lt.1 hge)
    omega
  have hgap : (2 ^ 24 * magOf (lowBits f0) + magOf b : ℚ) ≤ 2 ^ 24 * magOf b := by
    exact_mod_cast magOf_gap_of_lt (by omega) hpat
  push_cast
  linarith

/-- The pattern before 1024. -/
theorem value_before_1024 : value 0x447fffff#32 = 1024 - 1 / 2 ^ 14 := by
  decide +kernel

/-- Settles O37: the exact quotient is at most `1024 - 2^-14`, which is a pattern, so it does not round past it. -/
theorem nyquistBound : Obligations.NyquistBound := by
  intro f0 fs hfs hf0 hmin hpos hlt hprod
  have hfsPos : 0 < value fs := lt_of_lt_of_le (by positivity) hmin
  rw [← value_before_1024]
  refine mem_range_of_roundsTo (incOf_roundsTo hf0 (by rwa [abs_of_pos hpos]) hfs hfsPos) (by decide) (by positivity) ?_
  rw [value_before_1024, div_le_iff₀ hfsPos]
  exact value_le_of_lt_half hfs hf0 hmin hpos hlt

/-- The rate 2^127 and the frequency 2^117. -/
theorem value_overflow_example : value 0x7f000000#32 = 2 ^ 127 ∧ value 0x7a000000#32 = 2 ^ 117 := by
  decide +kernel

/-- Settles O38: 2048 times 2^117 overflows, and an infinity over 2^127 is that infinity. -/
theorem nyquistBoundNeedsFiniteProduct : Obligations.NyquistBoundNeedsFiniteProduct := by
  obtain ⟨hfs, hf0⟩ := value_overflow_example
  refine ⟨0x7a000000#32, 0x7f000000#32, by decide, by decide, ?_, ?_, ?_, by decide⟩
  · rw [hfs]
    norm_num
  · rw [hf0]
    norm_num
  · rw [hfs, hf0]
    norm_num

end Sys2Proof.Proofs
end

section
/-! The configuration commands (R102 to R107) and a session at sub-Nyquist frequencies (R127, R182). -/

namespace Sys2Proof.Proofs

open Sys2Proof.Machine

/-! ## `INIT` and `SETF0` -/

/-- Settles O9: what an accepted `INIT` writes, field by field. -/
theorem initConstructs : Obligations.InitConstructs := fun fs f0 _ hfs => (Performed.initAccepted fs f0 hfs).exec_eq

/-- Settles O12: what `SETF0` writes in READY, field by field. -/
theorem setF0WritesIncrement : Obligations.SetF0WritesIncrement := fun f0 _ hr => (Performed.setf0Ready f0 hr).exec_eq

/-- The accepted rates as pattern numbers. -/
theorem gt32_zero_iff_toNat (fs : Word) : gt32 fs f32Zero = true ↔ 1 ≤ fs.toNat ∧ fs.toNat ≤ 0x7f800000 := by
  have hlt := fs.isLt
  rw [gt32_zero_iff, signBit_eq, decide_eq_false_iff_not, lowBits, infBits]
  omega

/-- Settles O11: the two ways an `INIT` ends, told apart by the pattern number of `fs`. -/
theorem initAcceptsPositiveRates : Obligations.InitAcceptsPositiveRates := by
  intro fs f0 s
  have hiff := gt32_zero_iff_toNat fs
  obtain ⟨t, ht⟩ := exists_performed (.init fs f0) s
  refine ⟨t, ht.exec_eq, hiff, fun hin => ?_, fun hout => ?_⟩
  · cases ht with
    | initAccepted _ _ hfs => exact ⟨rfl, rfl, rfl⟩
    | initRejected _ _ hfs => exact absurd (hfs.symm.trans (hiff.2 hin)) Bool.false_ne_true
  · cases ht with
    | initAccepted _ _ hfs =>
      have := hiff.1 hfs
      omega
    | initRejected _ _ hfs => exact ⟨rfl, fun r => by simp, rfl⟩

/-- In READY a `RENDER` ends with the wrapped sum in IDX, whether or not it has a table entry (R120, R124). -/
theorem Performed.render_idx {s t : State} (h : Performed s .render t) (hr : s.ready = true) :
    t.idx = wrap (advance s.idx s.inc) := by
  cases h with
  | renderEntry k _ hk => rfl
  | renderOutOfTable _ hk => rfl
  | renderNotReady hn => exact absurd (hn.symm.trans hr) Bool.false_ne_true

/-- Settles O55: `SETF0` writes INC alone, and the `RENDER` adds it to the IDX that stands. -/
theorem phaseIsContinuous : Obligations.PhaseIsContinuous := by
  intro f0 s hr
  obtain ⟨u, hu⟩ := exists_performed .render (s.accept.write .inc (incOf f0 s.fs))
  exact ⟨_, u, (Performed.setf0Ready f0 hr).exec_eq, rfl, hu.exec_eq, hu.render_idx hr⟩

/-! ## A session -/

/-- Constructed at the rate `fs`, with IDX and INC in range: what `RENDER` and an in-range `SETF0` keep. -/
def Running (fs : Word) (s : State) : Prop := s.ready = true ∧ s.fs = fs ∧ InPhase s.idx ∧ InPhase s.inc

/-- `RENDER`, or a `SETF0` whose increment at the rate `fs` lies in `[0, 2048)`. -/
def KeepsRange (fs : Word) (i : Instr) : Prop := i = .render ∨ ∃ f0, i = .setf0 f0 ∧ InPhase (incOf f0 fs)

/-- Such a command keeps the range and records no fault. -/
theorem exists_performed_running {fs : Word} {s : State} {i : Instr} (hs : Running fs s) (hi : KeepsRange fs i) :
    ∃ t, Performed s i t ∧ Running fs t ∧ t.faults = s.faults := by
  obtain ⟨hr, rfl, hidx, hinc⟩ := hs
  obtain rfl | ⟨f0, rfl, hf0⟩ := hi
  · obtain ⟨p, k, hp, hrender⟩ := exists_performed_render hr hidx hinc
    exact ⟨_, hrender, ⟨hr, rfl, hp, hinc⟩, rfl⟩
  · exact ⟨_, .setf0Ready f0 hr, ⟨hr, rfl, hidx, hf0⟩, rfl⟩

/-- So does a list of them, by induction on the list. -/
theorem perform_running {fs : Word} {cmds : List Instr} (hcmds : ∀ i ∈ cmds, KeepsRange fs i) {s : State} (hs : Running fs s) :
    ∃ t, perform cmds s = .next t ∧ Running fs t ∧ t.faults = s.faults := by
  induction cmds generalizing s with
  | nil => exact ⟨s, rfl, hs, rfl⟩
  | cons i rest ih =>
    obtain ⟨hi, hrest⟩ := List.forall_mem_cons.1 hcmds
    obtain ⟨u, hu, hrun, hfaults⟩ := exists_performed_running hs hi
    obtain ⟨t, ht, htrun, htfaults⟩ := ih hrest hrun
    exact ⟨t, (perform_cons hu rest).trans ht, htrun, htfaults.trans hfaults⟩

/-- Below the Nyquist frequency the increment is in range. -/
theorem inPhase_incOf {f0 fs : Word} (hfs : isFinite fs = true) (hmin : 2 ^ (-125 : ℤ) ≤ value fs)
    (hf0 : isFinite f0 = true ∧ 0 < value f0 ∧ value f0 < value fs / 2 ∧ value f0 < 2 ^ 117) : InPhase (incOf f0 fs) := by
  obtain ⟨hfin, hpos, hhalf, hprod⟩ := hf0
  obtain ⟨hinc, h0, hle⟩ := nyquistBound f0 fs hfs hfin hmin hpos hhalf hprod
  exact ⟨hinc, h0, hle.trans_lt (by norm_num)⟩

/-- Settles O46: `INIT` constructs with IDX at `+0.0` and INC in range, and every later command keeps that. -/
theorem subNyquistSessionNeverFaults : Obligations.SubNyquistSessionNeverFaults := by
  intro fs f0 cmds s hfs hmin hfreq hcmds
  have hgt : gt32 fs f32Zero = true :=
    (gt32_iff_value_lt hfs (by decide)).2 (by rw [value_f32Zero]; exact lt_of_lt_of_le (by positivity) hmin)
  have hinc : ∀ f, f = f0 ∨ Instr.setf0 f ∈ cmds → InPhase (incOf f fs) := fun f hf => inPhase_incOf hfs hmin (hfreq f hf)
  have hkeeps : ∀ i ∈ cmds, KeepsRange fs i := fun i hi => (hcmds i hi).imp_right fun ⟨f, hf⟩ => ⟨f, hf, hinc f (.inr (hf ▸ hi))⟩
  have hstart : InPhase f32Zero := ⟨by decide, value_f32Zero.ge, by rw [value_f32Zero]; norm_num⟩
  obtain ⟨t, ht, ⟨hready, -, hidx, -⟩, hfaults⟩ := perform_running hkeeps
    (s := (((s.accept.write .fs fs).write .inc (incOf f0 fs)).write .idx f32Zero).makeReady)
    ⟨rfl, rfl, hstart, hinc f0 (.inl rfl)⟩
  exact ⟨t, (perform_cons (.initAccepted fs f0 hgt) cmds).trans ht, hfaults, hready, hidx⟩

end Sys2Proof.Proofs
end

section
/-! How a `RENDER` ends (R120, R121, R127), and the samples of a run with no fault recorded (R134, R150, R188). -/

namespace Sys2Proof.Proofs

open Sys2Proof.Machine

/-! ## How a `RENDER` in READY ends -/

/-- With an index for the wrapped phase, `RENDER` writes IDX and returns that entry. -/
theorem exec_render_entry {s : State} {k : Fin 2048} (hr : s.ready = true)
    (hk : tableIndex (wrap (add32 s.idx s.inc)) = some k) :
    exec .render s = .next { s with
      idx := wrap (add32 s.idx s.inc), commands := s.commands + 1, samples := s.samples ++ [s.memRead k] } :=
  (Performed.renderEntry k hr hk).exec_eq

/-- Without one it writes IDX, records `IDX_OOB` and returns some word. -/
theorem exec_render_fault {s : State} (hr : s.ready = true) (hk : tableIndex (wrap (add32 s.idx s.inc)) = none) :
    ∃ (w : Word) (d : Nat), exec .render s = .next { s with
      idx := wrap (add32 s.idx s.inc), commands := s.commands + 1,
      faults := s.faults ++ [⟨.idxOob, s.commands + 1⟩], samples := s.samples ++ [w], draws := d } :=
  ⟨_, _, (Performed.renderOutOfTable hr hk).exec_eq⟩

/-- Settles O14: a finite phase that truncates to `k` has the index `k`. -/
theorem renderReturnsEntry : Obligations.RenderReturnsEntry := fun _ _ hr hfin htrunc =>
  exec_render_entry hr (tableIndex_eq_some.2 ⟨hfin, htrunc⟩)

/-- Settles O44: sum and wrap keep the range, and every phase in range has an entry. -/
theorem rangeInvariant : Obligations.RangeInvariant := by
  intro s hr hidx hinc
  obtain ⟨p, k, hp, hrender⟩ := exists_performed_render hr hidx hinc
  exact ⟨p, k, hp, hrender.exec_eq⟩

/-! ## Samples (R134) -/

/-- A `RENDER` that records no fault returns an entry of the table: both ways without one do record a fault. -/
theorem Performed.render_sample {s t : State} (h : Performed s .render t) (hf : t.faults = s.faults) :
    ∃ k : Fin 2048, t.samples = s.samples ++ [s.memRead k] := by
  cases h with
  | renderEntry k hr hk => exact ⟨k, rfl⟩
  | renderOutOfTable hr hk => simp at hf
  | renderNotReady hr => simp at hf

/-- Settles O53: the sample is an entry, and P2 speaks of every entry. -/
theorem samplesLieInUnitRange : Obligations.SamplesLieInUnitRange := by
  intro s t htable hexec hf
  obtain ⟨k, hk⟩ := (exec_eq_next_iff.1 hexec).render_sample hf
  exact ⟨k, hk, htable k⟩

/-- The fault record only grows (R150): one that is empty after a command was empty before it. -/
theorem Performed.safe_of_safe {s t : State} {i : Instr} (h : Performed s i t) (ht : Safe t) : Safe s := by
  cases h with
  | initAccepted | setf0Ready | renderEntry => exact ht
  | initRejected | setf0NotReady | renderOutOfTable | renderNotReady | reserved => simp [Safe] at ht

theorem safe_of_perform {cmds : List Instr} {s t : State} (h : perform cmds s = .next t) (ht : Safe t) : Safe s := by
  induction cmds generalizing s with
  | nil => exact Host.Outcome.next.inj h ▸ ht
  | cons i rest ih =>
    obtain ⟨u, hu⟩ := exists_performed i s
    exact hu.safe_of_safe (ih ((perform_cons hu rest).symm.trans h))

/-- A command that records no fault returns an entry of the table if it is a `RENDER`, and nothing otherwise (R75). -/
theorem Performed.samples_of_no_fault {s t : State} {i : Instr} (h : Performed s i t) (hf : t.faults = s.faults) :
    ∃ ks : List (Fin 2048), ks.length = [i].count .render ∧ t.samples = s.samples ++ ks.map s.memRead := by
  obtain ⟨-, -, -, hframe⟩ := commandFrames i s t h.exec_eq
  cases i with
  | render =>
    obtain ⟨k, hk⟩ := h.render_sample hf
    exact ⟨[k], rfl, hk⟩
  | init fs f0 =>
    obtain ⟨hsamples, -⟩ := hframe
    exact ⟨[], rfl, by simpa using hsamples⟩
  | setf0 f0 =>
    obtain ⟨-, -, -, hsamples, -⟩ := hframe
    exact ⟨[], rfl, by simpa using hsamples⟩
  | reserved =>
    obtain ⟨-, -, -, -, hsamples, -⟩ := hframe
    exact ⟨[], rfl, by simpa using hsamples⟩

/-- So does a run, by induction on its commands: a record that is empty at the end was empty all along. -/
theorem samples_of_safe_run {cmds : List Instr} {s t : State} (h : perform cmds s = .next t) (hsafe : Safe t) :
    ∃ ks : List (Fin 2048), ks.length = cmds.count .render ∧ t.samples = s.samples ++ ks.map s.memRead := by
  induction cmds generalizing s with
  | nil => exact ⟨[], rfl, by rw [Host.Outcome.next.inj h, List.map_nil, List.append_nil]⟩
  | cons i rest ih =>
    obtain ⟨u, hu⟩ := exists_performed i s
    have hrest : perform rest u = .next t := (perform_cons hu rest).symm.trans h
    have hu0 : Safe u := safe_of_perform hrest hsafe
    have hs0 : Safe s := hu.safe_of_safe hu0
    have htable : u.memRead = s.memRead := funext (commandFrames i s u hu.exec_eq).2.1
    obtain ⟨ks, hlen, hks⟩ := hu.samples_of_no_fault (hu0.trans hs0.symm)
    obtain ⟨ls, hlen', hls⟩ := ih hrest
    refine ⟨ks ++ ls, ?_, ?_⟩
    · rw [List.length_append, hlen, hlen', ← List.count_append, List.singleton_append]
    · rw [hls, hks, htable, List.map_append, List.append_assoc]

/-- Settles O54: what a run observes of the samples is the list itself, and P2 speaks of every entry. -/
theorem safeRunSamplesAreTableEntries : Obligations.SafeRunSamplesAreTableEntries := by
  intro cmds s t h hsafe
  obtain ⟨ks, hlen, hks⟩ := samples_of_safe_run h hsafe
  exact ⟨ks, hlen, hks, fun htable k _ => (htable k).2⟩

end Sys2Proof.Proofs
end

section
/-! The wrap and the index (R121 to R125): which sums have a table entry, and a phase or an increment that is no number. -/

namespace Sys2Proof.Proofs

open Sys2Proof.Machine

/-! ## The wrap (R123) -/

theorem isFinite_infinity (neg : Bool) : isFinite (infinity neg) = false := by
  cases neg <;> decide

theorem isFinite_of_isNaN {p : Word} (h : isNaN p = true) : isFinite p = false := by
  rw [isFinite, unpack_of_isNaN h]

/-- The comparison is false for a NaN. -/
theorem wrap_of_isNaN {p : Word} (h : isNaN p = true) : wrap p = p := by
  obtain ⟨-, -, hge⟩ := operations_of_isNaN (a := p) (b := f32N) (by rw [h, Bool.true_or])
  rw [wrap, hge, if_neg Bool.false_ne_true]

/-- Of the infinities only `+inf` is wrapped, and `+inf - 2048` is `+inf`. -/
theorem wrap_infinity (neg : Bool) : wrap (infinity neg) = infinity neg := by
  cases neg <;> decide

theorem wrap_of_not_finite {p : Word} (h : isFinite p = false) : wrap p = p := by
  obtain hfin | ⟨neg, rfl⟩ | hnan := kinds p
  · exact absurd (h.symm.trans hfin) Bool.false_ne_true
  · exact wrap_infinity neg
  · exact wrap_of_isNaN hnan

theorem wrap_of_lt {p : Word} (hp : isFinite p = true) (h : value p < 2048) : wrap p = p :=
  if_neg (mt (ge32_iff_value_le hp isFinite_f32N).1 (by rw [value_f32N]; exact not_le.2 h))

theorem wrap_of_le {p : Word} (hp : isFinite p = true) (h : 2048 ≤ value p) : wrap p = sub32 p f32N :=
  if_pos ((ge32_iff_value_le hp isFinite_f32N).2 (by rwa [value_f32N]))

/-- From 2048 on the wrap is a correctly rounded difference. -/
theorem wrap_roundsTo {p : Word} (hp : isFinite p = true) (h : 2048 ≤ value p) : RoundsTo (value p - 2048) (wrap p) := by
  rw [wrap_of_le hp h, ← value_f32N]
  exact (differenceRoundsToNearest p f32N hp isFinite_f32N).1

/-! ## The patterns from 2048 to 4096 are the multiples of 2^-12 there -/

/-- The multiples of 2^-12 up to 4096 have at most 24 bits. -/
theorem exists_value_eq_grid {n : Nat} (hn : n ≤ 2 ^ 24) : ∃ w : Word, isFinite w = true ∧ value w = n / 2 ^ 12 := by
  obtain ⟨w, hw, hu⟩ := exists_pattern false n 137 hn (by omega)
  refine ⟨w, hw, ?_⟩
  rw [value, hu, signed, if_neg Bool.false_ne_true]
  push_cast
  ring

/-- The 2^23 + 1 patterns from 2048 to 4096, in order. -/
theorem exists_grid_of_value {p : Word} (hp : isFinite p = true) (h0 : 2048 ≤ value p) (h1 : value p ≤ 4096) :
    ∃ n : Nat, n ≤ 2 ^ 23 ∧ lowBits p = 138 * 2 ^ 23 + n ∧ value p = 2048 + n / 2 ^ 12 := by
  have hv : value p = (magOf (lowBits p) : ℚ) / 2 ^ 149 := value_of_pos hp (by linarith)
  rw [hv, le_div_iff₀ (by positivity)] at h0
  rw [hv, div_le_iff₀ (by positivity)] at h1
  have hlow : 138 * 2 ^ 23 ≤ lowBits p := by
    by_contra hlt
    have hmag : magOf (lowBits p) < magOf (138 * 2 ^ 23) := magOf_lt (by decide) (not_le.1 hlt)
    have hval : magOf (138 * 2 ^ 23) = 2048 * 2 ^ 149 := by decide
    exact absurd (hval ▸ hmag) (not_lt.2 (by exact_mod_cast h0))
  have hhigh : lowBits p ≤ 139 * 2 ^ 23 := by
    by_contra hgt
    have hmag : magOf (139 * 2 ^ 23) < magOf (lowBits p) := magOf_lt ((isFinite_iff p).1 hp) (not_le.1 hgt)
    have hval : magOf (139 * 2 ^ 23) = 4096 * 2 ^ 149 := by decide
    exact absurd (hval ▸ hmag) (not_lt.2 (by exact_mod_cast h1))
  obtain ⟨n, hn⟩ := Nat.exists_eq_add_of_le hlow
  refine ⟨n, by omega, hn, ?_⟩
  rw [hv, hn, show 138 * 2 ^ 23 + n = 137 * 2 ^ 23 + (2 ^ 23 + n) by omega, magOf_scaled (by omega) (by omega)]
  push_cast
  ring

/-- There the difference is a pattern, and so exact. -/
theorem wrap_exact {p : Word} (hp : isFinite p = true) (h0 : 2048 ≤ value p) (h1 : value p ≤ 4096) :
    isFinite (wrap p) = true ∧ value (wrap p) = value p - 2048 := by
  obtain ⟨n, hn, -, hv⟩ := exists_grid_of_value hp h0 h1
  obtain ⟨w, hw, hvw⟩ := exists_value_eq_grid (n := n) (by omega)
  have hd : value p - 2048 = value w := by rw [hv, hvw, add_sub_cancel_left]
  rw [hd]
  exact (wrap_roundsTo hp h0).exact hw hd

/-- Settles O39: the comparison is false for a NaN, and from 2048 to 4096 the difference is a pattern. -/
theorem singleWrap : Obligations.SingleWrap :=
  ⟨fun _ => wrap_of_lt, fun _ => wrap_of_isNaN, wrap_infinity, fun _ => wrap_exact,
    fun _ hp h => ⟨wrap_of_le hp h, wrap_roundsTo hp h⟩⟩

/-! ## The index (R121) -/

theorem minusOne_finite_value : isFinite 0xbf800000#32 = true ∧ value 0xbf800000#32 = -1 := by
  decide +kernel

theorem finite_value_4096 : isFinite 0x45800000#32 = true ∧ value 0x45800000#32 = 4096 := by
  decide +kernel

/-- Truncation gives an index exactly for the values in `(-1, 2048)`: toward zero, those above -1 give 0. -/
theorem exists_tableIndex_iff {p : Word} :
    (∃ k, tableIndex p = some k) ↔ isFinite p = true ∧ -1 < value p ∧ value p < 2048 := by
  rw [← Option.ne_none_iff_exists', ne_eq, tableIndex_eq_none]
  have hlow : -1 < value p ↔ -1 * 2 ^ 149 < units p := by exact_mod_cast int_lt_value p (-1)
  have hhigh : value p < 2048 ↔ units p < 2048 * 2 ^ 149 := by exact_mod_cast value_lt_int p 2048
  rw [hlow, hhigh, not_or, Bool.not_eq_false, and_congr_right_iff]
  intro _
  rcases le_total 0 (units p) with h | h
  · rw [trunc, Int.tdiv_eq_ediv_of_nonneg h]
    omega
  · rw [trunc, ← neg_neg (units p), Int.neg_tdiv, Int.tdiv_eq_ediv_of_nonneg (by omega)]
    omega

theorem tableIndex_eq_none_iff {p : Word} : tableIndex p = none ↔ isFinite p = false ∨ value p ≤ -1 ∨ 2048 ≤ value p := by
  rw [← not_iff_not, ← ne_eq, Option.ne_none_iff_exists', exists_tableIndex_iff]
  simp

/-! ## The sum before the wrap (R124) -/

/-- A sum that has a table entry once it is wrapped. -/
def HasEntry (p : Word) : Prop := isFinite p = true ∧ -1 < value p ∧ value p < 4096

/-- The tests of R124 are false exactly for such a sum. -/
theorem hasEntry_iff {p : Word} :
    (isNaN p || ge32 p 0x45800000#32 || ge32 0xbf800000#32 p) = false ↔ HasEntry p := by
  obtain ⟨hfinLow, hlow⟩ := minusOne_finite_value
  obtain ⟨hfinHigh, hhigh⟩ := finite_value_4096
  obtain hfin | ⟨neg, rfl⟩ | hnan := kinds p
  · have hnan : isNaN p = false := by rw [isNaN, unpack_of_finite hfin]
    rw [HasEntry, hnan, Bool.false_or, Bool.or_eq_false_iff, ← Bool.not_eq_true, ← Bool.not_eq_true,
      ge32_iff_value_le hfin hfinHigh, ge32_iff_value_le hfinLow hfin, hlow, hhigh, not_le, not_le]
    tauto
  · have htests : (isNaN (infinity neg) || ge32 (infinity neg) 0x45800000#32 || ge32 0xbf800000#32 (infinity neg)) = true := by
      cases neg <;> decide
    simp [HasEntry, htests, isFinite_infinity]
  · simp [HasEntry, hnan, isFinite_of_isNaN hnan]

/-- The wrap moves the sums from 2048 to 4096 into the range of the table, and no other sum into or out of it. -/
theorem exists_tableIndex_wrap_iff {p : Word} : (∃ k, tableIndex (wrap p) = some k) ↔ HasEntry p := by
  rw [exists_tableIndex_iff]
  cases hfin : isFinite p with
  | false => simp [HasEntry, wrap_of_not_finite hfin, hfin]
  | true =>
    rcases lt_or_ge (value p) 2048 with hlt | hge
    · rw [wrap_of_lt hfin hlt, HasEntry]
      exact and_congr_right fun _ => and_congr_right fun _ => ⟨fun h => by linarith, fun _ => hlt⟩
    · rcases lt_or_ge (value p) 4096 with hlt' | hge'
      · obtain ⟨hw, hv⟩ := wrap_exact hfin hge hlt'.le
        rw [hv, HasEntry]
        exact ⟨fun _ => ⟨hfin, by linarith, hlt'⟩, fun _ => ⟨hw, by linarith, by linarith⟩⟩
      · refine ⟨fun ⟨hw, _, hlt⟩ => ?_, fun ⟨_, _, hlt⟩ => absurd hlt (not_lt.2 hge')⟩
        have hN : value f32N ≤ value (wrap p) :=
          (wrap_roundsTo hfin hge).value_le hw isFinite_f32N (by rw [value_f32N]; linarith)
        exact absurd (value_f32N ▸ hN) (not_le.2 hlt)

theorem tableIndex_wrap_eq_none_iff {p : Word} :
    tableIndex (wrap p) = none ↔ (isNaN p || ge32 p 0x45800000#32 || ge32 0xbf800000#32 p) = true := by
  rw [← not_iff_not, ← ne_eq, Option.ne_none_iff_exists', exists_tableIndex_wrap_iff, Bool.not_eq_true, hasEntry_iff]

/-- Settles O40: the tests say whether the wrapped sum has an index, and the index is the wrapped sum truncated. -/
theorem preWrapSumDecides : Obligations.PreWrapSumDecides := by
  intro s hr
  constructor
  · intro htests
    have hnone := tableIndex_wrap_eq_none_iff.2 htests
    exact ⟨tableIndex_eq_none_iff.1 hnone, exec_render_fault hr hnone⟩
  · intro htests
    have hentry := hasEntry_iff.1 htests
    obtain ⟨k, hk⟩ := exists_tableIndex_wrap_iff.2 hentry
    obtain ⟨hwfin, hw0, hwN⟩ := exists_tableIndex_iff.1 ⟨k, hk⟩
    obtain ⟨-, htrunc⟩ := tableIndex_eq_some.1 hk
    obtain ⟨hfin, -, h4096⟩ := hentry
    refine ⟨hwfin, hw0, hwN, k, exec_render_entry hr hk, fun hlt => ?_, fun hge => ?_⟩
    · rw [← htrunc, wrap_of_lt hfin hlt]
    · obtain ⟨-, hv⟩ := wrap_exact hfin hge h4096.le
      rw [← htrunc, ← hv]
      exact (truncIsTowardZero _ hwfin).1 (by rw [hv]; linarith)

/-- A sum with an entry: `RENDER` returns it and records no fault. -/
theorem Performed.render_of_hasEntry {s t : State} (h : Performed s .render t) (hr : s.ready = true)
    (hp : HasEntry (add32 s.idx s.inc)) :
    ∃ k, tableIndex (wrap (add32 s.idx s.inc)) = some k ∧ t.samples = s.samples ++ [s.memRead k] ∧ t.faults = s.faults := by
  obtain ⟨k', hk'⟩ := exists_tableIndex_wrap_iff.2 hp
  cases h with
  | renderEntry k _ hk => exact ⟨k, hk, rfl, rfl⟩
  | renderOutOfTable _ hk => exact absurd (hk.symm.trans hk') (by simp)
  | renderNotReady hn => exact absurd (hn.symm.trans hr) Bool.false_ne_true

/-- A sum without one: `RENDER` records the fault. -/
theorem Performed.render_of_not_hasEntry {s t : State} (h : Performed s .render t) (hr : s.ready = true)
    (hp : ¬HasEntry (add32 s.idx s.inc)) : t.faults = s.faults ++ [⟨.idxOob, s.commands + 1⟩] := by
  cases h with
  | renderEntry k _ hk => exact absurd (exists_tableIndex_wrap_iff.1 ⟨k, hk⟩) hp
  | renderOutOfTable _ _ => rfl
  | renderNotReady hn => exact absurd (hn.symm.trans hr) Bool.false_ne_true

/-! ## A phase or an increment that is no number (R125) -/

theorem isNaN_add32 {a b : Word} (h : (isNaN a || isNaN b) = true) : isNaN (add32 a b) = true := by
  obtain ⟨⟨hadd, -⟩, -⟩ := operations_of_isNaN h
  rw [hadd]
  exact isNaN_nanResult _ _ _

theorem isFinite_add32_of_not_finite {a b : Word} (h : (isFinite a && isFinite b) = false) : isFinite (add32 a b) = false := by
  by_cases hnan : (isNaN a || isNaN b) = true
  · exact isFinite_of_isNaN (isNaN_add32 hnan)
  obtain ⟨hna, hnb⟩ : ¬isNaN a = true ∧ ¬isNaN b = true := by simpa using hnan
  obtain hfa | ⟨s, rfl⟩ := (kinds a).imp_right (Or.resolve_right · hna) <;>
    obtain hfb | ⟨t, rfl⟩ := (kinds b).imp_right (Or.resolve_right · hnb)
  · rw [hfa, hfb] at h
    exact absurd h (by decide)
  · obtain ⟨-, hadd, -⟩ := infinity_absorbs t hfa
    rw [hadd, isFinite_infinity]
  · obtain ⟨hadd, -⟩ := infinity_absorbs s hfb
    rw [hadd, isFinite_infinity]
  · rw [add32, unpack_infinity, unpack_infinity]
    dsimp only
    split
    · exact isFinite_infinity s
    · exact isFinite_of_isNaN (isNaN_nanResult _ _ _)

/-- Such a phase or increment gives a sum that is no number, which is kept by the wrap and has no entry. -/
theorem Performed.render_not_finite {s t : State} (h : Performed s .render t) (hr : s.ready = true)
    (hfin : (isFinite s.idx && isFinite s.inc) = false) :
    t.idx = add32 s.idx s.inc ∧ t.faults = s.faults ++ [⟨.idxOob, s.commands + 1⟩] := by
  have hsum : isFinite (add32 s.idx s.inc) = false := isFinite_add32_of_not_finite hfin
  have hnone : ¬HasEntry (add32 s.idx s.inc) := fun ⟨hf, _⟩ => Bool.false_ne_true (hsum.symm.trans hf)
  exact ⟨(h.render_idx hr).trans (wrap_of_not_finite hsum), h.render_of_not_hasEntry hr hnone⟩

theorem add32_infinity_self (neg : Bool) : add32 (infinity neg) (infinity neg) = infinity neg := by
  cases neg <;> decide

/-- Settles O41: IDX receives the sum itself, which the rules of NaNs and infinities give. -/
theorem nonFinitePhaseFaults : Obligations.NonFinitePhaseFaults := by
  intro s hr hfin
  obtain ⟨t, ht⟩ := exists_performed .render s
  obtain ⟨hidx, hfaults⟩ := ht.render_not_finite hr hfin
  refine ⟨t, ht.exec_eq, hfaults, fun hnan => hidx ▸ isNaN_add32 hnan, fun neg hneg => ⟨?_, fun hopp => ?_⟩⟩
  · rw [hidx, hneg]
    rintro (hinc | hsame)
    · exact (infinity_absorbs neg hinc).1
    · rw [hsame, add32_infinity_self]
  · rw [hidx, hneg, hopp]
    obtain ⟨-, -, -, -, -, hadd⟩ := isNaN_of_invalid neg neg
    exact hadd

/-- From a NaN phase, `SETF0` keeps it, the reserved word keeps it and faults, and `RENDER` makes a NaN of it and faults. -/
theorem Performed.nan_phase {s t : State} {i : Instr} (h : Performed s i t) (hr : s.ready = true) (hnan : isNaN s.idx = true)
    (hi : i = .render ∨ i = .reserved ∨ ∃ f0, i = .setf0 f0) :
    t.ready = true ∧ isNaN t.idx = true ∧
      t.faults.length = s.faults.length + [i].count .render + [i].count .reserved := by
  obtain rfl | rfl | ⟨f0, rfl⟩ := hi
  · have hfin : (isFinite s.idx && isFinite s.inc) = false := by rw [isFinite_of_isNaN hnan, Bool.false_and]
    obtain ⟨hidx, hfaults⟩ := h.render_not_finite hr hfin
    obtain ⟨-, -, -, -, -, hready, -⟩ := commandFrames _ _ _ h.exec_eq
    refine ⟨hready.trans hr, hidx ▸ isNaN_add32 (by rw [hnan, Bool.true_or]), ?_⟩
    rw [hfaults, List.length_append]
    rfl
  · cases h
    exact ⟨hr, hnan, List.length_append⟩
  · cases h with
    | setf0Ready _ _ => exact ⟨hr, hnan, rfl⟩
    | setf0NotReady _ hn => exact absurd (hn.symm.trans hr) Bool.false_ne_true

/-- Settles O42, by induction on the commands. -/
theorem naNPhaseStaysUntilInit : Obligations.NaNPhaseStaysUntilInit := by
  intro cmds
  induction cmds with
  | nil => exact fun s hr hnan _ => ⟨s, rfl, hr, hnan, rfl⟩
  | cons i rest ih =>
    intro s hr hnan hcmds
    obtain ⟨hi, hrest⟩ := List.forall_mem_cons.1 hcmds
    obtain ⟨u, hu⟩ := exists_performed i s
    obtain ⟨hur, hunan, hlen⟩ := hu.nan_phase hr hnan hi
    obtain ⟨t, ht, htr, htnan, htlen⟩ := ih u hur hunan hrest
    have hcount : ∀ j, (i :: rest).count j = [i].count j + rest.count j := fun _ => List.count_append (l₁ := [i])
    refine ⟨t, (perform_cons hu rest).trans ht, htr, htnan, ?_⟩
    rw [htlen, hlen, hcount, hcount]
    omega

end Sys2Proof.Proofs
end

section
/-! Sums at the edges of the range (R126, R128, R129): rounding passes no pattern and stays on the nearer side of the midway
point between two, and from 2048 to 4096 the patterns are 2^-12 apart. -/

namespace Sys2Proof.Proofs

open Sys2Proof.Machine

/-! ## Neighbouring patterns -/

/-- A pattern is its sign and its value. -/
theorem eq_of_value_eq {a b : Word} (ha : isFinite a = true) (hb : isFinite b = true) (hs : signBit a = signBit b)
    (hv : value a = value b) : a = b := by
  have hmag : magOf (lowBits a) = magOf (lowBits b) := by
    have hu := (value_eq_iff a b).1 hv
    rw [units_of_finite ha, units_of_finite hb] at hu
    rw [← natAbs_signed (signBit a) (magOf (lowBits a)), hu, natAbs_signed]
  have hlow : lowBits a = lowBits b := by
    rcases Nat.lt_trichotomy (lowBits a) (lowBits b) with h | h | h
    · exact absurd hmag (magOf_lt ((isFinite_iff b).1 hb) h).ne
    · exact h
    · exact absurd hmag (magOf_lt ((isFinite_iff a).1 ha) h).ne'
  rw [← withSign_lowBits a, ← withSign_lowBits b, hs, hlow]

/-- Of the patterns of value 0 or more, only `-0.0` has its sign bit set. -/
theorem signBit_of_value_nonneg {w : Word} (hw : isFinite w = true) (h : 0 ≤ value w) (hz : w ≠ 0x80000000#32) :
    signBit w = false := by
  by_contra hs
  rw [Bool.not_eq_false] at hs
  have hu : 0 ≤ units w := by simpa using (int_le_value w 0).1 (by simpa using h)
  exact hz (eq_negZero hw hs (le_antisymm (units_nonpos_of_signBit hw hs) hu))

/-- Without a sign, a pattern's value is the magnitude of its bits. -/
theorem positive_pattern {b : Nat} (hb : b < infBits) :
    isFinite (withSign false b) = true ∧ value (withSign false b) = (magOf b : ℚ) / 2 ^ 149 := by
  have hu := unpack_withSign false hb
  refine ⟨isFinite_of_unpack hu, ?_⟩
  have hunits : units (withSign false b) = magOf b := by
    rw [units, hu]
    rfl
  rw [value, hunits, Int.cast_natCast]

/-- No pattern lies between two positive ones whose numbers are adjacent. -/
theorem value_le_of_lt_succ {w : Word} {b : Nat} (hw : isFinite w = true) (hb : b + 1 < infBits)
    (h : value w < value (withSign false (b + 1))) : value w ≤ value (withSign false b) := by
  rw [(positive_pattern hb).2] at h
  rw [(positive_pattern (Nat.lt_of_succ_lt hb)).2]
  rcases le_or_gt (value w) 0 with hneg | hpos
  · exact hneg.trans (by positivity)
  · rw [value_of_pos hw hpos, div_lt_div_iff_of_pos_right (by positivity), Nat.cast_lt] at h
    have hle : lowBits w ≤ b := by
      by_contra hgt
      exact absurd h (not_lt.2 (magOf_le ((isFinite_iff w).1 hw) (not_le.1 hgt)))
    rw [value_of_pos hw hpos, div_le_div_iff_of_pos_right (by positivity), Nat.cast_le]
    exact magOf_le (Nat.lt_of_succ_lt hb) hle

/-- An exact value that rounds to a pattern lies no higher than midway to any greater one, and midway only by a tie. -/
theorem le_midpoint_of_roundsTo {x : ℚ} {r w : Word} (h : RoundsTo x r) (hr : isFinite r = true) (hw : isFinite w = true)
    (hlt : value r < value w) :
    x ≤ (value r + value w) / 2 ∧ (x = (value r + value w) / 2 → r.getLsbD 0 = false) := by
  obtain ⟨-, -, -, -, hnear⟩ := h
  obtain ⟨hle, htie⟩ := hnear hr w hw
  constructor
  · by_contra hgt
    rw [abs_of_nonpos (by linarith)] at hle
    obtain h | h := le_abs.1 hle <;> linarith
  · intro hx
    refine htie ?_ hlt.ne'
    rw [abs_of_nonpos (by linarith), abs_of_nonneg (by linarith)]
    linarith

/-- Nor does it lie lower than midway to any smaller one. -/
theorem midpoint_le_of_roundsTo {x : ℚ} {r w : Word} (h : RoundsTo x r) (hr : isFinite r = true) (hw : isFinite w = true)
    (hlt : value w < value r) :
    (value w + value r) / 2 ≤ x ∧ (x = (value w + value r) / 2 → r.getLsbD 0 = false) := by
  obtain ⟨-, -, -, -, hnear⟩ := h
  obtain ⟨hle, htie⟩ := hnear hr w hw
  constructor
  · by_contra hgt
    rw [abs_of_nonneg (by linarith)] at hle
    obtain h | h := le_abs.1 hle <;> linarith
  · intro hx
    refine htie ?_ hlt.ne
    rw [abs_of_nonneg (by linarith), abs_of_nonpos (by linarith)]
    linarith

/-! ## A negative increment (R126) -/

theorem abs_value_le_greatest {w : Word} (h : isFinite w = true) : |value w| ≤ 2 ^ 128 - 2 ^ 104 := by
  have hle : magOf (lowBits w) ≤ magOf (infBits - 1) :=
    magOf_le (by decide) (Nat.le_sub_one_of_lt ((isFinite_iff w).1 h))
  have hval : magOf (infBits - 1) + 2 ^ 104 * 2 ^ 149 = 2 ^ 128 * 2 ^ 149 := by decide
  have hsum : (magOf (lowBits w) : ℚ) + 2 ^ 104 * 2 ^ 149 ≤ 2 ^ 128 * 2 ^ 149 := by
    exact_mod_cast hval ▸ Nat.add_le_add_right hle _
  rw [abs_value h, div_le_iff₀ (by positivity)]
  linarith

/-- A phase is too small beside half a step of the greatest finite values to make a sum overflow. -/
theorem isFinite_add32_of_abs_lt {a b : Word} (ha : isFinite a = true) (hb : isFinite b = true) (h : |value a| < 2048) :
    isFinite (add32 a b) = true := by
  obtain ⟨-, hover, -⟩ := (sumRoundsToNearest a b ha hb).1
  by_contra hinf
  have hx : 2 ^ 128 - 2 ^ 103 ≤ |value a + value b| := hover.1 (by simpa using hinf)
  have hsum := abs_add_le (value a) (value b)
  have hgreatest := abs_value_le_greatest hb
  have hstep : (2 : ℚ) ^ 128 - 2 ^ 104 + 2048 < 2 ^ 128 - 2 ^ 103 := by norm_num
  linarith

theorem trunc_mono {a b : Word} (h : value a ≤ value b) : trunc a ≤ trunc b :=
  Int.tdiv_le_tdiv (by norm_num) ((value_le_iff a b).1 h)

/-- Settles O43: the sum does not round past IDX, which is a pattern and below 2048, so nothing is wrapped. -/
theorem negativeIncrementRunsBackwards : Obligations.NegativeIncrementRunsBackwards := by
  intro s hr hidx h1 hN hinc hneg
  have hsum : isFinite (add32 s.idx s.inc) = true := isFinite_add32_of_abs_lt hidx hinc (abs_lt.2 ⟨by linarith, hN⟩)
  have hle : value (add32 s.idx s.inc) ≤ value s.idx :=
    (sumRoundsToNearest _ _ hidx hinc).1.le_value hsum hidx (by linarith)
  have hwrap : wrap (add32 s.idx s.inc) = add32 s.idx s.inc := wrap_of_lt hsum (hle.trans_lt hN)
  obtain ⟨t, ht⟩ := exists_performed .render s
  have htidx : t.idx = add32 s.idx s.inc := (ht.render_idx hr).trans hwrap
  refine ⟨t, ht.exec_eq, htidx, ?_⟩
  rw [htidx]
  refine ⟨hsum, hle, fun hlow => ?_, fun hhigh => ?_⟩
  · exact ht.render_of_not_hasEntry hr fun ⟨_, hgt, _⟩ => absurd hgt (not_lt.2 hlow)
  · obtain ⟨k, hk, hsample, hfaults⟩ := ht.render_of_hasEntry hr ⟨hsum, hhigh, by linarith⟩
    obtain ⟨-, htrunc⟩ := tableIndex_eq_some.1 hk
    refine ⟨hfaults, k, ?_, hsample⟩
    rw [← htrunc, hwrap]
    exact trunc_mono hle

/-! ## A sum just below the table length (R128) -/

/-- The two greatest phases, which are 2^-13 below 2048 and from each other. -/
theorem value_greatest_phases : value 0x44ffffff#32 = 2048 - 1 / 2 ^ 13 ∧ value 0x44fffffe#32 = 2048 - 1 / 2 ^ 12 := by
  decide +kernel

/-- Half a step below 2048 the tie goes to 2048, since the last bit of the phase below it is 1. -/
theorem eq_f32N_of_roundsTo {x : ℚ} {r : Word} (h : RoundsTo x r) (h0 : 2048 - 1 / 2 ^ 14 ≤ x) (hN : x < 2048) :
    r = f32N := by
  have htop : isFinite 0x44ffffff#32 = true := by decide
  obtain ⟨hgreatest, -⟩ := value_greatest_phases
  obtain ⟨hr, hr0, hrN⟩ := mem_range_of_roundsTo h isFinite_f32N (by linarith) (by rw [value_f32N]; exact hN.le)
  have hrtop : value 0x44ffffff#32 ≤ value r := h.value_le hr htop (by rw [hgreatest]; linarith)
  obtain ⟨-, -, -, hsign, -⟩ := id h
  have hsign : signBit r = false := hsign (by linarith)
  rcases hrN.eq_or_lt with heq | hlt
  · exact eq_of_value_eq hr isFinite_f32N hsign heq
  · obtain ⟨hmid, htie⟩ := le_midpoint_of_roundsTo h hr isFinite_f32N hlt
    have hle := value_le_of_lt_2048 hr (value_f32N ▸ hlt)
    have hrv : value r = value 0x44ffffff#32 := le_antisymm hle hrtop
    have hreq : r = 0x44ffffff#32 := eq_of_value_eq hr htop hsign hrv
    rw [hrv, hgreatest, value_f32N] at hmid htie
    have hodd := htie (by linarith)
    rw [hreq] at hodd
    exact absurd hodd (by decide)

/-- Settles O47: the sum is 2048.0, which wraps to `+0.0`. -/
theorem sumRoundsOntoTableLength : Obligations.SumRoundsOntoTableLength := by
  refine ⟨fun s hr hidx hinc h0 hN => ?_, by decide⟩
  have hsum : add32 s.idx s.inc = f32N := eq_f32N_of_roundsTo (sumRoundsToNearest _ _ hidx hinc).1 h0 hN
  have hwrap : wrap (add32 s.idx s.inc) = 0#32 := by
    rw [hsum]
    decide
  have hexec := exec_render_entry (k := 0) hr (by rw [hwrap]; decide)
  rw [hwrap] at hexec
  exact ⟨hsum, hexec⟩

/-! ## An increment of exactly the table length (R129) -/

/-- From 2048 to 4096 rounding is to the nearest multiple of 2^-12, ties to the even one. -/
theorem grid_of_roundsTo {x : ℚ} {r : Word} (h : RoundsTo x r) (hr : isFinite r = true) (h0 : 2048 ≤ x) (h1 : x ≤ 4096) :
    ∃ n : ℕ, value r = 2048 + n / 2 ^ 12 ∧ |value r - x| ≤ 1 / 2 ^ 13 ∧ (|value r - x| = 1 / 2 ^ 13 → n % 2 = 0) := by
  obtain ⟨hfin4096, hv4096⟩ := finite_value_4096
  have hlow : value f32N ≤ value r := h.value_le hr isFinite_f32N (by rwa [value_f32N])
  have hhigh : value r ≤ value 0x45800000#32 := h.le_value hr hfin4096 (by rwa [hv4096])
  obtain ⟨n, hn, hbits, hv⟩ := exists_grid_of_value hr (value_f32N ▸ hlow) (hv4096 ▸ hhigh)
  have heven : r.getLsbD 0 = false → n % 2 = 0 := by
    rw [getLsbD_zero, hbits, decide_eq_false_iff_not]
    omega
  have habove : x - value r ≤ 1 / 2 ^ 13 ∧ (x - value r = 1 / 2 ^ 13 → n % 2 = 0) := by
    rcases hn.eq_or_lt with rfl | hlt
    · have : value r = 4096 := by rw [hv]; norm_num
      exact ⟨by linarith, fun hx => by linarith⟩
    · obtain ⟨w, hw, hvw⟩ := exists_value_eq_grid (n := 2 ^ 23 + n + 1) (by omega)
      push_cast at hvw
      obtain ⟨hmid, htie⟩ := le_midpoint_of_roundsTo h hr hw (by linarith)
      exact ⟨by linarith, fun hx => heven (htie (by linarith))⟩
  have hbelow : value r - x ≤ 1 / 2 ^ 13 ∧ (value r - x = 1 / 2 ^ 13 → n % 2 = 0) := by
    rcases n.eq_zero_or_pos with rfl | hpos
    · have : value r = 2048 := by rw [hv]; norm_num
      exact ⟨by linarith, fun hx => by linarith⟩
    · obtain ⟨w, hw, hvw⟩ := exists_value_eq_grid (n := 2 ^ 23 + n - 1) (by omega)
      rw [Nat.cast_sub (by omega)] at hvw
      push_cast at hvw
      obtain ⟨hmid, htie⟩ := midpoint_le_of_roundsTo h hr hw (by linarith)
      exact ⟨by linarith, fun hx => heven (htie (by linarith))⟩
  refine ⟨n, hv, abs_le.2 ⟨by linarith, hbelow.1⟩, fun htie => ?_⟩
  obtain hpos | hneg := (abs_eq (by positivity)).1 htie
  · exact hbelow.2 hpos
  · exact habove.2 (by linarith)

/-- Every phase but the greatest one is at most the one before it. -/
theorem value_le_of_ne_greatest {p : Word} (h : InPhase p) (hne : p ≠ 0x44ffffff#32) : value p ≤ value 0x44fffffe#32 := by
  obtain ⟨hfin, -, hN⟩ := h
  refine value_le_of_lt_succ (b := 0x44fffffe) hfin (by decide) (lt_of_le_of_ne (value_le_of_lt_2048 hfin hN) fun hv => hne ?_)
  have hpos : 0 < value p := by
    rw [hv]
    decide +kernel
  exact eq_of_value_eq hfin (by decide) (signBit_of_value_pos hfin hpos) hv

theorem value_before_4096 : value 0x457fffff#32 = 4096 - 1 / 2 ^ 12 := by
  decide +kernel

/-- Adding 2048 rounds any phase but the greatest onto the grid, and the wrap moves it back exactly. -/
theorem wrap_add32_f32N {p : Word} (hp : InPhase p) (hne : p ≠ 0x44ffffff#32) :
    InPhase (wrap (add32 p f32N)) ∧ ∃ n : ℕ, value (wrap (add32 p f32N)) = n / 2 ^ 12 ∧
      |value (wrap (add32 p f32N)) - value p| ≤ 1 / 2 ^ 13 ∧
      (|value (wrap (add32 p f32N)) - value p| = 1 / 2 ^ 13 → n % 2 = 0) := by
  have hbefore := value_le_of_ne_greatest hp hne
  rw [value_greatest_phases.2] at hbefore
  obtain ⟨hfin, h0, -⟩ := hp
  have hround := (sumRoundsToNearest p f32N hfin isFinite_f32N).1
  rw [value_f32N] at hround
  obtain ⟨hsum, hsum0, hsumN⟩ := mem_range_of_roundsTo (w := 0x457fffff#32) hround (by decide) (by linarith)
    (by rw [value_before_4096]; linarith)
  obtain ⟨n, hv, hnear, htie⟩ := grid_of_roundsTo hround hsum (by linarith) (by linarith)
  have hn0 : (0 : ℚ) ≤ n / 2 ^ 12 := by positivity
  refine ⟨inPhase_wrap hsum hsum0 hsumN, n, ?_⟩
  rw [value_before_4096] at hsumN
  obtain ⟨-, hwrap⟩ := wrap_exact hsum (by linarith) (by linarith)
  have hshift : value (wrap (add32 p f32N)) - value p = value (add32 p f32N) - (value p + 2048) := by linarith
  rw [hshift]
  exact ⟨by linarith, hnear, htie⟩

/-- Settles O48: the greatest phase and `+0.0` are computed, and every other phase is moved onto the grid. -/
theorem incrementExactlyTableLength : Obligations.IncrementExactlyTableLength := by
  intro s hr hinc hidx
  refine ⟨fun htop => ?_, fun hne => ?_, fun hzero => ?_⟩
  · have hwrap : wrap (add32 s.idx s.inc) = 0x45000000#32 := by
      rw [htop, hinc]
      decide
    obtain ⟨w, d, hexec⟩ := exec_render_fault hr (by rw [hwrap]; decide)
    exact ⟨_, hexec, hwrap, rfl⟩
  · have hsum : add32 s.idx s.inc = add32 s.idx f32N := congrArg _ hinc
    obtain ⟨hphase, n, hv, hnear, htie⟩ := wrap_add32_f32N hidx hne
    rw [← hsum] at hphase hv hnear htie
    obtain ⟨k, hk⟩ := exists_tableIndex_of_inPhase hphase
    exact ⟨_, n, exec_render_entry hr hk, rfl, hphase, by rw [hv, Int.cast_natCast], hnear, fun h => by exact_mod_cast htie h⟩
  · have hwrap : wrap (add32 s.idx s.inc) = 0#32 := by
      rw [hzero, hinc]
      decide
    exact ⟨_, exec_render_entry (k := 0) hr (by rw [hwrap]; decide), hwrap, rfl⟩

end Sys2Proof.Proofs
end

section
/-! An increment above the table length (R130): the phase climbs by at least a step of the grid until a sum reaches 4096. -/

namespace Sys2Proof.Proofs

open Sys2Proof.Machine

/-! ## When the sum has an entry -/

/-- A correctly rounded positive value is a number or `+inf`. -/
theorem finite_or_infinity_of_roundsTo {x : ℚ} {r : Word} (h : RoundsTo x r) (hx : 0 < x) :
    isFinite r = true ∨ r = infinity false := by
  obtain ⟨hnan, -, -, hsign, -⟩ := h
  obtain hfin | ⟨neg, rfl⟩ | hnan' := kinds r
  · exact .inl hfin
  · cases neg with
    | false => exact .inr rfl
    | true => exact absurd (hsign hx) (by decide)
  · exact absurd (hnan.symm.trans hnan') Bool.false_ne_true

/-- It is at least any pattern that the exact value is at least. -/
theorem ge32_of_roundsTo {x : ℚ} {r w : Word} (h : RoundsTo x r) (hx : 0 < x) (hw : isFinite w = true) (hle : value w ≤ x) :
    ge32 r w = true := by
  obtain hr | rfl := finite_or_infinity_of_roundsTo h hx
  · exact (ge32_iff_value_le hr hw).2 (h.value_le hr hw hle)
  · exact (compare_infinity false hw).2.1

/-- A sum of at least 2048 has an entry exactly below 4096. -/
theorem hasEntry_iff_of_roundsTo {x : ℚ} {r : Word} (h : RoundsTo x r) (hx : 2048 ≤ x) :
    HasEntry r ↔ ge32 r 0x45800000#32 = false := by
  obtain ⟨hfin4096, hv4096⟩ := finite_value_4096
  obtain hr | rfl := finite_or_infinity_of_roundsTo h (by linarith)
  · have hge : value f32N ≤ value r := h.value_le hr isFinite_f32N (by rwa [value_f32N])
    rw [value_f32N] at hge
    rw [← Bool.not_eq_true, ge32_iff_value_le hr hfin4096, hv4096, not_le]
    exact ⟨fun ⟨_, _, hlt⟩ => hlt, fun hlt => ⟨hr, by linarith, hlt⟩⟩
  · exact iff_of_false (fun ⟨hf, _⟩ => absurd hf (by decide)) (by decide)

/-- Settles O49: the sum is at least 2048, so the test against 4096 alone decides. -/
theorem incrementAboveTableLength : Obligations.IncrementAboveTableLength := by
  intro s hr hidx hidx0 hinc hincN
  have hround := (sumRoundsToNearest s.idx s.inc hidx hinc).1
  have hentry := hasEntry_iff_of_roundsTo hround (by linarith)
  obtain ⟨hfin4096, hv4096⟩ := finite_value_4096
  obtain ⟨t, ht⟩ := exists_performed .render s
  refine ⟨t, ht.exec_eq, fun hge => ?_, fun hlt => ?_, fun hbig => ?_⟩
  · exact ht.render_of_not_hasEntry hr fun h => Bool.false_ne_true ((hentry.1 h).symm.trans hge)
  · obtain ⟨-, -, -, hfaults⟩ := ht.render_of_hasEntry hr (hentry.2 hlt)
    exact hfaults
  · exact ge32_of_roundsTo hround (by linarith) hfin4096 (by rw [hv4096]; linarith)

/-! ## The climb -/

/-- The least increment above 2048 is 2^-12 above it. -/
theorem le_value_of_gt_2048 {w : Word} (hw : isFinite w = true) (h : 2048 < value w) : 2048 + 1 / 2 ^ 12 ≤ value w := by
  have hnext : value (withSign false (0x45000000 + 1)) = 2048 + 1 / 2 ^ 12 := by decide +kernel
  by_contra hlt
  have hle : value w ≤ value f32N := value_le_of_lt_succ hw (by decide) (hnext ▸ not_le.1 hlt)
  exact absurd (value_f32N ▸ hle) (not_le.2 h)

/-- A `RENDER` that does not fault with such an increment moves IDX up by at least a step of the grid, of which 2^23 make 2048. -/
theorem Performed.render_climbs {s t : State} (h : Performed s .render t) (hr : s.ready = true) (hidx : isFinite s.idx = true)
    (hinc : isFinite s.inc = true) (hincN : 2048 < value s.inc) {q : ℕ} (hq : (q : ℚ) / 2 ^ 12 ≤ value s.idx)
    (hf : t.faults = s.faults) :
    isFinite t.idx = true ∧ ((q + 1 : ℕ) : ℚ) / 2 ^ 12 ≤ value t.idx ∧ q + 1 < 2 ^ 23 := by
  have hq0 : (0 : ℚ) ≤ q / 2 ^ 12 := by positivity
  have hround := (sumRoundsToNearest s.idx s.inc hidx hinc).1
  have hstep := le_value_of_gt_2048 hinc hincN
  obtain ⟨hsum, -, h4096⟩ : HasEntry (add32 s.idx s.inc) := by
    by_contra hnone
    have hgrown := h.render_of_not_hasEntry hr hnone
    rw [hf] at hgrown
    simp at hgrown
  obtain ⟨hfin4096, hv4096⟩ := finite_value_4096
  have hx : value s.idx + value s.inc < 4096 := by
    by_contra hge
    have hle := hround.value_le hsum hfin4096 (by rw [hv4096]; exact not_lt.1 hge)
    linarith
  have hqlt : q + 1 < 2 ^ 23 := by
    have : ((q + 1 : ℕ) : ℚ) < 2 ^ 23 := by
      push_cast
      linarith
    exact_mod_cast this
  obtain ⟨w, hw, hvw⟩ := exists_value_eq_grid (n := 2 ^ 23 + (q + 1)) (by omega)
  push_cast at hvw
  have hle : value w ≤ value (add32 s.idx s.inc) := hround.value_le hsum hw (by linarith)
  obtain ⟨hwrapFin, hwrap⟩ := wrap_exact hsum (by linarith) h4096.le
  rw [h.render_idx hr, advance]
  refine ⟨hwrapFin, ?_, hqlt⟩
  rw [hwrap]
  push_cast
  linarith

/-- So a fault comes before IDX has climbed the `m` steps that are left of the grid's 2^23. -/
theorem exists_fault_of_climb (m : ℕ) : ∀ (s : State) (q : ℕ), s.ready = true → isFinite s.idx = true → isFinite s.inc = true →
    2048 < value s.inc → (q : ℚ) / 2 ^ 12 ≤ value s.idx → 2 ^ 23 ≤ q + m →
    ∃ (n : ℕ) (t : State), n ≤ m + 1 ∧ perform (List.replicate n .render) s = .next t ∧ t.faults ≠ s.faults := by
  induction m with
  | zero =>
    intro s q hr hidx hinc hincN hq hm
    obtain ⟨t, ht⟩ := exists_performed .render s
    refine ⟨1, t, le_rfl, perform_cons ht [], fun hf => ?_⟩
    obtain ⟨-, -, hlt⟩ := ht.render_climbs hr hidx hinc hincN hq hf
    omega
  | succ m ih =>
    intro s q hr hidx hinc hincN hq hm
    obtain ⟨t, ht⟩ := exists_performed .render s
    by_cases hf : t.faults = s.faults
    · obtain ⟨hidx', hq', -⟩ := ht.render_climbs hr hidx hinc hincN hq hf
      obtain ⟨-, -, -, hinc', -, hready', -⟩ := commandFrames _ _ _ ht.exec_eq
      obtain ⟨n, u, hn, hu, hne⟩ := ih t (q + 1) (hready'.trans hr) hidx' (hinc' ▸ hinc) (hinc' ▸ hincN) hq' (by omega)
      exact ⟨n + 1, u, by omega, (perform_cons ht _).trans hu, hf ▸ hne⟩
    · exact ⟨1, t, by omega, perform_cons ht [], hf⟩

/-- Settles O50: from a phase of at least 0 all 2^23 steps are left. -/
theorem incrementAboveTableLengthFaultsInTime : Obligations.IncrementAboveTableLengthFaultsInTime := by
  intro s hr hidx hidx0 hinc hincN _
  exact exists_fault_of_climb (2 ^ 23) s 0 hr hidx hinc hincN (by simpa using hidx0) (by omega)

end Sys2Proof.Proofs
end

section
/-! A phase that the sum leaves where it is (R131, R133): a zero is added exactly, and an increment of at most half the step
at IDX rounds away. -/

namespace Sys2Proof.Proofs

open Sys2Proof.Machine

/-! ## A zero increment (R131) -/

/-- A zero of either sign leaves every number but `-0.0` as it is. -/
theorem add32_zero {a : Word} (ha : isFinite a = true) (h0 : 0 ≤ value a) (hz : a ≠ 0x80000000#32) (neg : Bool) :
    add32 a (zero neg) = a := by
  have hzero : isFinite (zero neg) = true := isFinite_of_unpack (unpack_zero neg)
  have hv0 : value (zero neg) = 0 := (value_eq_zero_iff _).2 (by cases neg <;> decide)
  obtain ⟨hsum, hv⟩ := (sumRoundsToNearest a (zero neg) ha hzero).1.exact ha (by rw [hv0, add_zero])
  refine eq_of_value_eq hsum ha ?_ hv
  rw [signBit_of_value_nonneg hsum (hv ▸ h0) (add32_ne_negZero hz), signBit_of_value_nonneg ha h0 hz]

/-- A `RENDER` whose wrapped sum is IDX itself changes the count of commands and the samples alone. -/
theorem performed_of_kept_phase {s : State} {k : Fin 2048} (hr : s.ready = true) (hwrap : wrap (add32 s.idx s.inc) = s.idx)
    (hk : tableIndex s.idx = some k) :
    Performed s .render { s with commands := s.commands + 1, samples := s.samples ++ [s.memRead k] } := by
  have hexec := exec_render_entry hr (hwrap.symm ▸ hk)
  rw [hwrap] at hexec
  exact exec_eq_next_iff.1 hexec

/-- So does a run of them, which reads one entry again and again. -/
theorem perform_of_kept_phase {k : Fin 2048} (n : ℕ) : ∀ s : State, s.ready = true → wrap (add32 s.idx s.inc) = s.idx →
    tableIndex s.idx = some k → perform (List.replicate n .render) s = .next { s with
      commands := s.commands + n, samples := s.samples ++ List.replicate n (s.memRead k) } := by
  induction n with
  | zero =>
    intro s _ _ _
    rw [List.replicate_zero, List.replicate_zero, List.append_nil]
    rfl
  | succ n ih =>
    intro s hr hwrap hk
    have hrest := ih { s with commands := s.commands + 1, samples := s.samples ++ [s.memRead k] } hr hwrap hk
    rw [List.replicate_succ, perform_cons (performed_of_kept_phase hr hwrap hk), hrest, List.append_assoc, Nat.add_assoc,
      Nat.add_comm 1]
    rfl

/-- Settles O51: the zero leaves IDX where it is. -/
theorem zeroIncrementRepeatsEntry : Obligations.ZeroIncrementRepeatsEntry := by
  rintro s hr hidx hz ⟨neg, hneg⟩
  obtain ⟨hfin, h0, hN⟩ := id hidx
  have hwrap : wrap (add32 s.idx s.inc) = s.idx := by rw [hneg, add32_zero hfin h0 hz, wrap_of_lt hfin hN]
  obtain ⟨k, hk⟩ := exists_tableIndex_of_inPhase hidx
  obtain ⟨-, htrunc⟩ := tableIndex_eq_some.1 hk
  exact ⟨k, htrunc.symm, fun n => perform_of_kept_phase n s hr hwrap hk⟩

/-! ## An increment of at most half a step (R133) -/

theorem exponentField_eq_lowBits (w : Word) : exponentField w = lowBits w / 2 ^ 23 := by
  rw [exponentField_eq, lowBits]
  omega

/-- The pattern after a normal one lies one step of its exponent above it. -/
theorem magOf_succ_of_normal {b : Nat} (hb : 2 ^ 23 ≤ b) : magOf (b + 1) = magOf b + 2 ^ (b / 2 ^ 23 - 1) := by
  obtain ⟨e, q, rfl, hq, hq'⟩ : ∃ e q, b = e * 2 ^ 23 + q ∧ 2 ^ 23 ≤ q ∧ q < 2 ^ 24 :=
    ⟨b / 2 ^ 23 - 1, b - (b / 2 ^ 23 - 1) * 2 ^ 23, by omega, by omega, by omega⟩
  rw [Nat.add_assoc, magOf_scaled hq' (fun _ => by omega), magOf_scaled hq'.le (fun _ => hq),
    show (e * 2 ^ 23 + q) / 2 ^ 23 - 1 = e by omega, Nat.succ_mul]

/-- Half that step at the exponent field `e`, as a power of two (R133). -/
theorem two_mul_half_step {e : ℕ} (he : 1 ≤ e) : (2 : ℚ) * 2 ^ ((e : ℤ) - 151) = 2 ^ (e - 1) / 2 ^ 149 := by
  obtain ⟨k, rfl⟩ := Nat.exists_eq_add_of_le' he
  rw [zpow_sub₀ two_ne_zero, zpow_natCast, Nat.add_sub_cancel, pow_succ]
  norm_num
  ring

/-- Between a normal positive pattern and a greater one stands the next pattern, or it is that one; it is odd if the first is even. -/
theorem exists_next {a r : Word} (ha : isFinite a = true) (hr : isFinite r = true) (hpos : 0 < value a)
    (hnormal : 1 ≤ exponentField a) (hlt : value a < value r) :
    ∃ w : Word, isFinite w = true ∧ signBit w = false ∧ value w = value a + 2 * 2 ^ ((exponentField a : ℤ) - 151) ∧
      value w ≤ value r ∧ (a.getLsbD 0 = false → w.getLsbD 0 = true) := by
  have hexp := exponentField_eq_lowBits a
  have hrpos : 0 < value r := hpos.trans hlt
  have hbits : lowBits a < lowBits r := by
    by_contra hge
    rw [value_of_pos ha hpos, value_of_pos hr hrpos, div_lt_div_iff_of_pos_right (by positivity), Nat.cast_lt] at hlt
    exact absurd hlt (not_lt.2 (magOf_le ((isFinite_iff a).1 ha) (not_lt.1 hge)))
  have hrinf := (isFinite_iff r).1 hr
  have h31 : lowBits a + 1 < 2 ^ 31 := lt_of_le_of_lt hbits (lowBits_lt r)
  obtain ⟨hw, hwv⟩ := positive_pattern (lt_of_le_of_lt (Nat.succ_le_of_lt hbits) hrinf)
  refine ⟨_, hw, signBit_withSign false h31, ?_, ?_, ?_⟩
  · rw [hwv, two_mul_half_step hnormal, value_of_pos ha hpos, hexp, magOf_succ_of_normal (by omega)]
    push_cast
    ring
  · rw [hwv, value_of_pos hr hrpos, div_le_div_iff_of_pos_right (by positivity), Nat.cast_le]
    exact magOf_le hrinf hbits
  · rw [getLsbD_zero, getLsbD_zero, lowBits_withSign false h31, decide_eq_false_iff_not, decide_eq_true_iff]
    omega

/-- A sum of at most half that step, a tie only from an even pattern, rounds back: the next pattern is no nearer, and odd. -/
theorem add32_of_half_step {a b : Word} (ha : InPhase a) (hnormal : 1 ≤ exponentField a) (hb : isFinite b = true)
    (hpos : 0 < value b) (hhalf : value b < 2 ^ ((exponentField a : ℤ) - 151) ∨
      value b = 2 ^ ((exponentField a : ℤ) - 151) ∧ a.getLsbD 0 = false) : add32 a b = a := by
  obtain ⟨hfin, h0, hN⟩ := ha
  have hexp := exponentField_eq_lowBits a
  have hmag : 0 < magOf (lowBits a) := magOf_lt (a := 0) ((isFinite_iff a).1 hfin) (by omega)
  have hapos : 0 < value a := lt_of_le_of_ne h0 fun h => hmag.ne' ((value_eq_zero_iff_magOf hfin).1 h.symm)
  have hround := (sumRoundsToNearest a b hfin hb).1
  have hsum : isFinite (add32 a b) = true := isFinite_add32_of_abs_lt hfin hb (by rwa [abs_of_nonneg h0])
  have hle : value a ≤ value (add32 a b) := hround.value_le hsum hfin (by linarith)
  have hsign : signBit (add32 a b) = false := signBit_of_value_pos hsum (hapos.trans_le hle)
  rcases hle.eq_or_lt with heq | hlt
  · exact eq_of_value_eq hsum hfin (hsign.trans (signBit_of_value_pos hfin hapos).symm) heq.symm
  · exfalso
    obtain ⟨w, hw, hwsign, hwv, hwle, hodd⟩ := exists_next hfin hsum hapos hnormal hlt
    have hhalf' : value b ≤ 2 ^ ((exponentField a : ℤ) - 151) := hhalf.elim le_of_lt fun h => h.1.le
    have hlew : value (add32 a b) ≤ value w := hround.le_value hsum hw (by linarith)
    have hv : value (add32 a b) = value w := le_antisymm hlew hwle
    obtain ⟨hmid, htie⟩ := midpoint_le_of_roundsTo hround hsum hfin hlt
    rw [hv, hwv] at hmid htie
    obtain hlt | ⟨heq, heven⟩ := hhalf
    · linarith
    · have hbit := htie (by linarith)
      rw [eq_of_value_eq hsum hw (hsign.trans hwsign.symm) hv, hodd heven] at hbit
      exact Bool.false_ne_true hbit.symm

/-- Settles O52: the phase that the sum leaves in place has its own entry. -/
theorem smallIncrementStagnates : Obligations.SmallIncrementStagnates := by
  intro s hr hidx hnormal hinc hpos hhalf
  have hsum : add32 s.idx s.inc = s.idx := add32_of_half_step hidx hnormal hinc hpos hhalf
  obtain ⟨hfin, -, hN⟩ := id hidx
  obtain ⟨k, hk⟩ := exists_tableIndex_of_inPhase hidx
  exact ⟨hsum, _, (performed_of_kept_phase hr (by rw [hsum, wrap_of_lt hfin hN]) hk).exec_eq, rfl, rfl⟩

end Sys2Proof.Proofs
end

section
/-! Exceptions (R150 to R156, R167, R170): what each fault leaves unchanged, that no fault stops the block, that the record
is written and never read, and that an instance at work leaves the others alone. -/

namespace Sys2Proof.Proofs

open Sys2Proof.Machine

/-! ## Each fault (R151 to R154) -/

/-- Settles O10: a rejected `INIT` makes the registers unwritten and records `CFG_FS`. -/
theorem initRejectsSampleRate : Obligations.InitRejectsSampleRate := fun fs f0 s hfs =>
  ⟨s.accept.discard.raise .cfgFs, (Performed.initRejected fs f0 hfs).exec_eq, rfl, read_of_not_ready rfl, rfl, rfl, rfl,
    fun _ => rfl, rfl, rfl, rfl⟩

/-- Settles O13: both commands record `NOT_READY`, and the word that `RENDER` returns is a drawn one. -/
theorem notReadyFaults : Obligations.NotReadyFaults :=
  ⟨fun f0 _ hr => (Performed.setf0NotReady f0 hr).exec_eq, fun _ hr => ⟨_, _, (Performed.renderNotReady hr).exec_eq⟩⟩

/-- Settles O15: such a phase has no index. -/
theorem renderOutOfTable : Obligations.RenderOutOfTable := fun _ hr hout =>
  exec_render_fault hr (tableIndex_eq_none.2 (hout.imp_right (Or.imp_right Int.add_one_le_of_lt)))

/-- Settles O16: the reserved word does nothing but record `ILLEGAL_CMD`. -/
theorem reservedWordFaults : Obligations.ReservedWordFaults := fun _ => Performed.reserved.exec_eq

/-! ## No fault stops the block (R150, R167) -/

/-- Settles O6: the port is all a step looks at before it takes an event. -/
theorem stepHoldsStateWithoutEvent : Obligations.StepHoldsStateWithoutEvent := by
  intro s h
  rw [step, h]

theorem step_of_reset {s : State} {rest : List PortEvent} (h : s.port = .reset :: rest) :
    step s = .next (State.resetEvent { s with port := rest }) := by
  rw [step, h]

/-- Settles O17: without an event, at a reset, and at a command, which can end in one of the listed ways from any state. -/
theorem noStepStops : Obligations.NoStepStops := by
  intro s
  cases hport : s.port with
  | nil => exact ⟨s, stepHoldsStateWithoutEvent s hport⟩
  | cons e rest =>
    cases e with
    | reset => exact ⟨_, step_of_reset hport⟩
    | command cw =>
      obtain ⟨t, ht⟩ := exists_performed (decode cw) { s with port := rest }
      exact ⟨t, (step_of_command hport).trans ht.exec_eq⟩

/-- Settles O26: the instance answers a next state, which is put at its place and nowhere else. -/
theorem instancesAreIndependent : Obligations.InstancesAreIndependent := by
  intro voices k s hk
  obtain ⟨t, ht⟩ := noStepStops s
  obtain ⟨hlt, -⟩ := List.getElem?_eq_some_iff.1 hk
  refine ⟨t, voices.set k t, ht, ?_, List.getElem?_set_self hlt, fun j hj => List.getElem?_set_ne hj.symm⟩
  rw [stepVoice, hk]
  dsimp only
  rw [ht]

/-! ## The fault record is written and never read (R150, R156) -/

/-- Every command takes one ordinal. -/
theorem Performed.commands_eq {s t : State} {i : Instr} (h : Performed s i t) : t.commands = s.commands + 1 := by
  cases h <;> rfl

/-- The events a command appends: at most one, chosen by the checks of R156, with the command's ordinal. -/
def newEvents (i : Instr) (s : State) : List FaultEvent := (faultOf i s).toList.map (fun r => ⟨r, s.commands + 1⟩)

/-- The way a command ends and the fault that the checks give are decided by the same tests. -/
theorem Performed.faults_eq {s t : State} {i : Instr} (h : Performed s i t) : t.faults = s.faults ++ newEvents i s := by
  cases h with
  | initAccepted fs f0 hfs => simp [newEvents, faultOf, hfs]
  | initRejected fs f0 hfs => simp [newEvents, faultOf, hfs]
  | setf0Ready f0 hr => simp [newEvents, faultOf, hr]
  | setf0NotReady f0 hr => simp [newEvents, faultOf, hr]
  | renderEntry k hr hk => simp [newEvents, faultOf, hr, hk]
  | renderOutOfTable hr hk => simp [newEvents, faultOf, hr, hk]
  | renderNotReady hr => simp [newEvents, faultOf, hr]
  | reserved => simp [newEvents, faultOf]

/-- Settles O18: some way to end is open to the command, and each appends what the checks give. -/
theorem oneFaultPerCommand : Obligations.OneFaultPerCommand := by
  intro i s
  obtain ⟨t, ht⟩ := exists_performed i s
  exact ⟨t, ht.exec_eq, ht.commands_eq, ht.faults_eq⟩

/-- From another fault record a command ends the same way, and leaves the same state but for the record. -/
theorem Performed.exists_withRecord {s t : State} {i : Instr} (h : Performed s i t) (record : List FaultEvent) :
    ∃ faults, Performed { s with faults := record } i { t with faults := faults } := by
  cases h with
  | initAccepted fs f0 hfs => exact ⟨_, .initAccepted fs f0 hfs⟩
  | initRejected fs f0 hfs => exact ⟨_, .initRejected fs f0 hfs⟩
  | setf0Ready f0 hr => exact ⟨_, .setf0Ready (s := { s with faults := record }) f0 hr⟩
  | setf0NotReady f0 hr => exact ⟨_, .setf0NotReady (s := { s with faults := record }) f0 hr⟩
  | renderEntry k hr hk => exact ⟨_, .renderEntry (s := { s with faults := record }) k hr hk⟩
  | renderOutOfTable hr hk => exact ⟨_, .renderOutOfTable (s := { s with faults := record }) hr hk⟩
  | renderNotReady hr => exact ⟨_, .renderNotReady (s := { s with faults := record }) hr⟩
  | reserved => exact ⟨_, .reserved⟩

/-- The events appended are the same too: the checks of R156 do not look at the record. -/
theorem Performed.withRecord {s t : State} {i : Instr} (h : Performed s i t) (record : List FaultEvent) :
    Performed { s with faults := record } i { t with faults := record ++ newEvents i s } := by
  obtain ⟨faults, hrec⟩ := h.exists_withRecord record
  obtain rfl : faults = record ++ newEvents i s := hrec.faults_eq
  exact hrec

/-- Settles O21: the record a command starts with is one record among others. -/
theorem faultRecordIsNeverRead : Obligations.FaultRecordIsNeverRead := by
  intro i s record
  obtain ⟨t, ht⟩ := exists_performed i s
  exact ⟨t, newEvents i s, (ht.withRecord s.faults).exec_eq, (ht.withRecord record).exec_eq⟩

end Sys2Proof.Proofs
end

section
/-! Reset and the lifecycle (R180 to R183): what the reset event leaves, and the row of each command, read off the listed
ways in which it can end. -/

namespace Sys2Proof.Proofs

open Sys2Proof.Machine

/-! ## The reset event (R180) -/

/-- Settles O7: the step is the reset event itself, which keeps the table and the samples and sets the rest as after reset. -/
theorem resetEventLeavesUninit : Obligations.ResetEventLeavesUninit := fun _ _ h =>
  ⟨_, step_of_reset h, rfl, resetEvent_read _, fun _ => rfl, rfl, rfl, rfl, rfl⟩

/-! ## The rows of the lifecycle machine (R183) -/

/-- Where the checks of R156 give a fault, that fault is recorded with the command's ordinal. -/
theorem Performed.faults_of_faultOf {s t : State} {i : Instr} {r : Fault} (h : Performed s i t) (hr : faultOf i s = some r) :
    t.faults = s.faults ++ [⟨r, s.commands + 1⟩] := by
  rw [h.faults_eq, newEvents, hr]
  rfl

/-- `INIT` decides the lifecycle state by its sample rate alone (R102, R103). -/
theorem Performed.init_ready {s t : State} {fs f0 : Word} (h : Performed s (.init fs f0) t) : t.ready = gt32 fs f32Zero := by
  cases h with
  | initAccepted _ _ hfs => exact hfs.symm
  | initRejected _ _ hfs => exact hfs.symm

theorem Performed.init_inc {s t : State} {fs f0 : Word} (h : Performed s (.init fs f0) t) (hfs : gt32 fs f32Zero = true) :
    t.inc = incOf f0 fs := by
  cases h with
  | initAccepted _ _ _ => rfl
  | initRejected _ _ hn => exact absurd (hn.symm.trans hfs) Bool.false_ne_true

theorem Performed.setf0_inc {s t : State} {f0 : Word} (h : Performed s (.setf0 f0) t) (hr : s.ready = true) :
    t.inc = incOf f0 s.fs := by
  cases h with
  | setf0Ready _ _ => rfl
  | setf0NotReady _ hn => exact absurd (hn.symm.trans hr) Bool.false_ne_true

/-- Every command but `INIT` keeps the lifecycle state. -/
theorem Performed.ready_eq {s t : State} {i : Instr} (h : Performed s i t) (hi : ∀ fs f0, i ≠ .init fs f0) :
    t.ready = s.ready := by
  cases h with
  | initAccepted fs f0 _ | initRejected fs f0 _ => exact absurd rfl (hi fs f0)
  | setf0Ready | setf0NotReady | renderEntry | renderOutOfTable | renderNotReady | reserved => rfl

/-- Settles O20: each row is the lifecycle state the command leaves, what it writes, and the fault its checks give. -/
theorem lifecycleMachine : Obligations.LifecycleMachine := by
  refine ⟨fun s rest h => ⟨_, step_of_reset h, rfl⟩, fun fs f0 s => ?init, fun f0 s => ?setf0, fun s => ?render,
    fun s => ⟨_, Performed.reserved.exec_eq, rfl, rfl⟩⟩
  case init =>
    obtain ⟨t, ht⟩ := exists_performed (.init fs f0) s
    exact ⟨t, ht.exec_eq, ht.init_ready, ht.init_inc, fun hfs => ht.faults_of_faultOf (by simp [faultOf, hfs])⟩
  case setf0 =>
    obtain ⟨t, ht⟩ := exists_performed (.setf0 f0) s
    exact ⟨t, ht.exec_eq, ht.ready_eq nofun, ht.setf0_inc, fun hr => ht.faults_of_faultOf (by simp [faultOf, hr])⟩
  case render =>
    obtain ⟨t, ht⟩ := exists_performed .render s
    exact ⟨t, ht.exec_eq, ht.ready_eq nofun, ht.render_idx, fun hr => ht.faults_of_faultOf (by simp [faultOf, hr])⟩

end Sys2Proof.Proofs
end
